-- ==== Sys2Proof/Word.lean ====
section
/-! DEFINITION. The bit-vector types of the core (R11, R13, R21, R301, R315).
Each value the spec calls a 32-bit pattern is a `Word`; reading it as signed or unsigned is the
choice of the operation that reads it. -/

namespace Sys2Proof

/-- A register value, a pc, a CSR value, an address or an instruction word (R11, R12, R13). -/
abbrev Word := BitVec 32

/-- One byte of memory (R200). -/
abbrev Byte := BitVec 8

/-- A 5-bit unsigned register index (R301, R316). -/
abbrev Reg := BitVec 5

/-- A 12-bit unsigned CSR index (R315, R111). -/
abbrev CsrIdx := BitVec 12

end Sys2Proof
end

