-- ==== Sys2Proof/Config.lean ====
section
/-! DEFINITION. What is fixed for the machine: the parameters of 00_scope.md section 4.
The spec leaves no value free (93_implementation_defined.md: "No behaviour of this core is left
as `any value` or `stuck`"), so there is no opaque constant here. -/

namespace Sys2Proof

/-- `MEM_SIZE` of the machine `State.reset` builds: the value the spec's vectors use (R14).
DESIGN CHOICE (notes/assumptions/1.md): the spec makes it a parameter; the model carries the size
in the state, and only the reset state takes this number. -/
def Config.memSize : Nat := 4096

/-- The smallest `MEM_SIZE` (R14). -/
def Config.minMemSize : Nat := 4

/-- The largest `MEM_SIZE` (R14). -/
def Config.maxMemSize : Nat := 2 ^ 32

/-- `NUM_CSR`: one CSR for every value of the 12-bit index (R15, R111). -/
def Config.numCsr : Nat := 4096

end Sys2Proof
end

