-- ==== Sys2Proof/Syntax.lean ====
section
/-! DEFINITION. The decoded instruction (R337): a closed set of 47 variants, one per row of
spec/opcode_table.json, each with the operands its format exposes (R339). An immediate `imm` is
the 32-bit value the decoder produced, already extended (R26). -/

namespace Sys2Proof

/-- One constructor per row of spec/opcode_table.json, in the table's order (R337). -/
inductive Instr where
  -- 40_upper_immediate.md
  | lui (rd : Reg) (imm : Word)
  | auipc (rd : Reg) (imm : Word)
  -- 41_jumps.md
  | jal (rd : Reg) (imm : Word)
  | jalr (rd rs1 : Reg) (imm : Word)
  -- 42_branches.md
  | beq (rs1 rs2 : Reg) (imm : Word)
  | bne (rs1 rs2 : Reg) (imm : Word)
  | blt (rs1 rs2 : Reg) (imm : Word)
  | bge (rs1 rs2 : Reg) (imm : Word)
  | bltu (rs1 rs2 : Reg) (imm : Word)
  | bgeu (rs1 rs2 : Reg) (imm : Word)
  -- 43_loads.md
  | lb (rd rs1 : Reg) (imm : Word)
  | lh (rd rs1 : Reg) (imm : Word)
  | lw (rd rs1 : Reg) (imm : Word)
  | lbu (rd rs1 : Reg) (imm : Word)
  | lhu (rd rs1 : Reg) (imm : Word)
  -- 44_stores.md
  | sb (rs1 rs2 : Reg) (imm : Word)
  | sh (rs1 rs2 : Reg) (imm : Word)
  | sw (rs1 rs2 : Reg) (imm : Word)
  -- 45_alu_immediate.md
  | addi (rd rs1 : Reg) (imm : Word)
  | slti (rd rs1 : Reg) (imm : Word)
  | sltiu (rd rs1 : Reg) (imm : Word)
  | xori (rd rs1 : Reg) (imm : Word)
  | ori (rd rs1 : Reg) (imm : Word)
  | andi (rd rs1 : Reg) (imm : Word)
  | slli (rd rs1 : Reg) (shamt : BitVec 5)
  | srli (rd rs1 : Reg) (shamt : BitVec 5)
  | srai (rd rs1 : Reg) (shamt : BitVec 5)
  -- 46_alu_register.md
  | add (rd rs1 rs2 : Reg)
  | sub (rd rs1 rs2 : Reg)
  | sll (rd rs1 rs2 : Reg)
  | slt (rd rs1 rs2 : Reg)
  | sltu (rd rs1 rs2 : Reg)
  | xor_ (rd rs1 rs2 : Reg)
  | srl (rd rs1 rs2 : Reg)
  | sra (rd rs1 rs2 : Reg)
  | or_ (rd rs1 rs2 : Reg)
  | and_ (rd rs1 rs2 : Reg)
  -- 47_fence_system.md: the ignored fields are kept, since `UnsupportedInstruction` records the
  -- decoded instruction with "its word's fields" (R702)
  | fence (fm pred succ : BitVec 4) (rs1 rd : Reg)
  | fencei (rd rs1 : Reg) (imm : Word)
  | ecall
  | ebreak
  -- 48_csr.md
  | csrrw (rd rs1 : Reg) (csrno : CsrIdx)
  | csrrs (rd rs1 : Reg) (csrno : CsrIdx)
  | csrrc (rd rs1 : Reg) (csrno : CsrIdx)
  | csrrwi (rd : Reg) (uimm : BitVec 5) (csrno : CsrIdx)
  | csrrsi (rd : Reg) (uimm : BitVec 5) (csrno : CsrIdx)
  | csrrci (rd : Reg) (uimm : BitVec 5) (csrno : CsrIdx)
  deriving DecidableEq, Repr

end Sys2Proof
end

