-- ==== Sys2Proof/Machine/State.lean ====
section
/-! DEFINITION. The state of the core (R100): one aggregate of exactly four parts, the general
registers, the pc, the CSR file and the memory. There is nothing else: no flags, no reservation,
no mode, no pending interrupt (R113 to R115). -/

namespace Sys2Proof.Machine

/-- The memory buffer (R200): its length `MEM_SIZE` (R14), and the bytes that differ from
`Memory.unlisted`, as (address, byte) pairs with strictly rising addresses. -/
structure Memory where
  size : Nat
  cells : List Host.Cell
  deriving DecidableEq, Repr

/-- What a byte that no entry lists reads as: `create()` zeroes memory (R130, R800). -/
def Memory.unlisted : Byte := 0x00#8

/-- What a CSR that no entry lists reads as: `create()` zeroes the CSR file (R130, R800). -/
def csrUnlisted : Word := 0x00000000#32

/-- The architectural state (R100). -/
structure State where
  /-- `x0 .. x31` (R101). The stored register 0 is 0 in every state a run reaches (R102). -/
  regs : Vector Word 32
  /-- The program counter (R106). -/
  pc : Word
  /-- The CSR file (R111): the CSRs that differ from `csrUnlisted`, as (index, value) pairs with
  strictly rising indices. -/
  csr : List (Nat × Word)
  /-- The memory (R200). -/
  mem : Memory
  deriving DecidableEq, Repr

/-- The three failures of a step (R700). Each is the spec's own result of the step, so stopping
with it is exact, neither safe nor unsafe in the log's sense. -/
inductive Fault where
  /-- Raised by `fetchDecode` for a fetched word that is no instruction; `address` is the address
  it was fetched from (R701). Exact: the spec fails here too. -/
  | invalidEncoding (word : Word) (address : Word)
  /-- Raised by executing FENCE, FENCE.I, ECALL and EBREAK, and by nothing else; it records the
  decoded instruction (R702, R580). Exact: the spec fails here too. -/
  | unsupportedInstruction (variant : Instr)
  /-- Raised by `fetchDecode`, by the five loads and by the three stores for an access outside
  the memory buffer; the computed address and the width in bytes (R703, R203). Exact: the spec
  fails here too. -/
  | outOfBoundsAccess (address : Word) (width : Nat)
  deriving DecidableEq, Repr

/-- Why the model gives a step no meaning. No step of this model is refused. -/
inductive Refusal where
  /-- An instruction without a meaning, raised only by an arm of `exec` that names it. Safe. No
  arm does: every instruction has its meaning. -/
  | notModelled (mnemonic : String)
  deriving DecidableEq, Repr

/-- The outcome of one step. -/
abbrev Result := Host.Outcome State Fault Refusal

/-- `create()` for a memory of `memSize` bytes (R800, R130). -/
def State.create (memSize : Nat) : State where
  regs := Vector.replicate 32 0#32
  pc := 0#32
  csr := []
  mem := { size := memSize, cells := [] }

/-- The machine right after reset (R800, R130), with the spec's example memory size
(notes/assumptions/1.md). -/
def State.reset : State := State.create Config.memSize

end Sys2Proof.Machine
end

