-- ==== Sys2Proof/Machine/Flags.lean ====
section
/-! DEFINITION. The core has no flags (R113): a comparison writes 0 or 1 to a general register or
decides a branch. The comparisons stand here, signed and unsigned (R21, R551). -/

namespace Sys2Proof.Machine

/-- All 32 bits equal (R441). -/
def cmpEq (a b : Word) : Bool := a == b

/-- `a <s b` (R443, R502, R544). -/
def cmpLtS (a b : Word) : Bool := BitVec.slt a b

/-- `a <u b` (R445, R503, R545). -/
def cmpLtU (a b : Word) : Bool := BitVec.ult a b

/-- The result of a set-if instruction: 1 if the comparison holds, else 0 (R502). -/
def setIf (c : Bool) : Word := if c then 1#32 else 0#32

end Sys2Proof.Machine
end

