-- ==== Sys2Proof/WellFormed.lean ====
section
/-! DEFINITION. The instructions an encoding can hold. Register indices, shift amounts, CSR
indices and the fence fields have exact widths in `Instr`; what is left to check is that an
immediate is one its format can produce (R310 to R314, 95_test_vectors.md L1.1). -/

namespace Sys2Proof

/-- An I or S immediate: -2048 .. 2047 (R310, R311). -/
def fits12 (imm : Word) : Bool := decide (-2048 ≤ imm.toInt) && decide (imm.toInt ≤ 2047)

/-- A B immediate: even, -4096 .. 4094 (R312). -/
def fits13 (imm : Word) : Bool :=
  decide (-4096 ≤ imm.toInt) && decide (imm.toInt ≤ 4094) && decide (imm.toNat % 2 = 0)

/-- A U immediate: a multiple of 4096 (R313). -/
def fitsUpper (imm : Word) : Bool := decide (imm.toNat % 4096 = 0)

/-- A J immediate: even, -1048576 .. 1048574 (R314). -/
def fits21 (imm : Word) : Bool :=
  decide (-1048576 ≤ imm.toInt) && decide (imm.toInt ≤ 1048574) && decide (imm.toNat % 2 = 0)

/-- The instruction's immediate is one its format can hold. -/
def Instr.wellFormed : Instr → Bool
  | .lui _ imm | .auipc _ imm => fitsUpper imm
  | .jal _ imm => fits21 imm
  | .jalr _ _ imm => fits12 imm
  | .beq _ _ imm | .bne _ _ imm | .blt _ _ imm | .bge _ _ imm | .bltu _ _ imm | .bgeu _ _ imm =>
    fits13 imm
  | .lb _ _ imm | .lh _ _ imm | .lw _ _ imm | .lbu _ _ imm | .lhu _ _ imm => fits12 imm
  | .sb _ _ imm | .sh _ _ imm | .sw _ _ imm => fits12 imm
  | .addi _ _ imm | .slti _ _ imm | .sltiu _ _ imm | .xori _ _ imm | .ori _ _ imm
  | .andi _ _ imm => fits12 imm
  | .slli _ _ _ | .srli _ _ _ | .srai _ _ _ => true
  | .add _ _ _ | .sub _ _ _ | .sll _ _ _ | .slt _ _ _ | .sltu _ _ _ | .xor_ _ _ _ | .srl _ _ _
  | .sra _ _ _ | .or_ _ _ _ | .and_ _ _ _ => true
  | .fence _ _ _ _ _ => true
  | .fencei _ _ imm => fits12 imm
  | .ecall | .ebreak => true
  | .csrrw _ _ _ | .csrrs _ _ _ | .csrrc _ _ _ | .csrrwi _ _ _ | .csrrsi _ _ _
  | .csrrci _ _ _ => true

end Sys2Proof
end

