-- ==== Sys2Proof/Decode.lean ====
section
/-! DEFINITION. The decoder (30_encoding.md): field extraction, immediates, `decode` (R330), the
byte-level decoder, the opcode table as data, then the encoder and the accessors of R339. -/

namespace Sys2Proof

/-! ## Fields of the word (R301, R315) -/

/-- `w[6:0]`. -/
def opcodeOf (w : Word) : BitVec 7 := w.extractLsb' 0 7
/-- `w[11:7]`. -/
def rdOf (w : Word) : Reg := w.extractLsb' 7 5
/-- `w[14:12]`. -/
def funct3Of (w : Word) : BitVec 3 := w.extractLsb' 12 3
/-- `w[19:15]`. -/
def rs1Of (w : Word) : Reg := w.extractLsb' 15 5
/-- `w[24:20]`. -/
def rs2Of (w : Word) : Reg := w.extractLsb' 20 5
/-- `w[31:25]`. -/
def funct7Of (w : Word) : BitVec 7 := w.extractLsb' 25 7
/-- `shamt = w[24:20]` (R315). -/
def shamtOf (w : Word) : BitVec 5 := w.extractLsb' 20 5
/-- `csrno = w[31:20]`, unsigned (R315). -/
def csrnoOf (w : Word) : CsrIdx := w.extractLsb' 20 12
/-- The field `w[19:15]` of a CSR immediate form, before its zero extension (R315). -/
def uimmOf (w : Word) : BitVec 5 := w.extractLsb' 15 5
/-- `fm = w[31:28]` (R336). -/
def fmOf (w : Word) : BitVec 4 := w.extractLsb' 28 4
/-- `pred = w[27:24]` (R336). -/
def predOf (w : Word) : BitVec 4 := w.extractLsb' 24 4
/-- `succ = w[23:20]` (R336). -/
def succOf (w : Word) : BitVec 4 := w.extractLsb' 20 4

/-! ## Immediates (R309 to R314) -/

/-- I immediate: `sext_32(w[31:20])` (R310). -/
def immI (w : Word) : Word := (w.extractLsb' 20 12).signExtend 32

/-- S immediate: `sext_32(w[31:25] || w[11:7])` (R311). -/
def immS (w : Word) : Word := (w.extractLsb' 25 7 ++ w.extractLsb' 7 5).signExtend 32

/-- B immediate: `sext_32(w[31] || w[7] || w[30:25] || w[11:8] || 0)` (R312). -/
def immB (w : Word) : Word :=
  (w.extractLsb' 31 1 ++ w.extractLsb' 7 1 ++ w.extractLsb' 25 6 ++ w.extractLsb' 8 4
    ++ 0#1).signExtend 32

/-- U immediate: `w[31:12] || 000000000000` (R313). -/
def immU (w : Word) : Word := w.extractLsb' 12 20 ++ 0#12

/-- J immediate: `sext_32(w[31] || w[19:12] || w[20] || w[30:21] || 0)` (R314). -/
def immJ (w : Word) : Word :=
  (w.extractLsb' 31 1 ++ w.extractLsb' 12 8 ++ w.extractLsb' 20 1 ++ w.extractLsb' 21 10
    ++ 0#1).signExtend 32

/-! ## The decode function (R320 to R334) -/

/-- Opcode `1100011` by funct3 (R323). -/
def decodeBranch (w : Word) : Option Instr :=
  match funct3Of w with
  | 0b000#3 => some (.beq (rs1Of w) (rs2Of w) (immB w))
  | 0b001#3 => some (.bne (rs1Of w) (rs2Of w) (immB w))
  | 0b100#3 => some (.blt (rs1Of w) (rs2Of w) (immB w))
  | 0b101#3 => some (.bge (rs1Of w) (rs2Of w) (immB w))
  | 0b110#3 => some (.bltu (rs1Of w) (rs2Of w) (immB w))
  | 0b111#3 => some (.bgeu (rs1Of w) (rs2Of w) (immB w))
  | _ => none

/-- Opcode `0000011` by funct3 (R324). -/
def decodeLoad (w : Word) : Option Instr :=
  match funct3Of w with
  | 0b000#3 => some (.lb (rdOf w) (rs1Of w) (immI w))
  | 0b001#3 => some (.lh (rdOf w) (rs1Of w) (immI w))
  | 0b010#3 => some (.lw (rdOf w) (rs1Of w) (immI w))
  | 0b100#3 => some (.lbu (rdOf w) (rs1Of w) (immI w))
  | 0b101#3 => some (.lhu (rdOf w) (rs1Of w) (immI w))
  | _ => none

/-- Opcode `0100011` by funct3 (R325). -/
def decodeStore (w : Word) : Option Instr :=
  match funct3Of w with
  | 0b000#3 => some (.sb (rs1Of w) (rs2Of w) (immS w))
  | 0b001#3 => some (.sh (rs1Of w) (rs2Of w) (immS w))
  | 0b010#3 => some (.sw (rs1Of w) (rs2Of w) (immS w))
  | _ => none

/-- Opcode `0010011` by funct3, and for the shifts by `w[31:25]` (R326). -/
def decodeOpImm (w : Word) : Option Instr :=
  match funct3Of w with
  | 0b000#3 => some (.addi (rdOf w) (rs1Of w) (immI w))
  | 0b010#3 => some (.slti (rdOf w) (rs1Of w) (immI w))
  | 0b011#3 => some (.sltiu (rdOf w) (rs1Of w) (immI w))
  | 0b100#3 => some (.xori (rdOf w) (rs1Of w) (immI w))
  | 0b110#3 => some (.ori (rdOf w) (rs1Of w) (immI w))
  | 0b111#3 => some (.andi (rdOf w) (rs1Of w) (immI w))
  | 0b001#3 =>
    if funct7Of w = 0b0000000#7 then some (.slli (rdOf w) (rs1Of w) (shamtOf w)) else none
  | 0b101#3 =>
    if funct7Of w = 0b0000000#7 then some (.srli (rdOf w) (rs1Of w) (shamtOf w))
    else if funct7Of w = 0b0100000#7 then some (.srai (rdOf w) (rs1Of w) (shamtOf w))
    else none
  | _ => none

/-- Opcode `0110011` by (funct7, funct3) (R327). -/
def decodeOp (w : Word) : Option Instr :=
  match funct7Of w, funct3Of w with
  | 0b0000000#7, 0b000#3 => some (.add (rdOf w) (rs1Of w) (rs2Of w))
  | 0b0100000#7, 0b000#3 => some (.sub (rdOf w) (rs1Of w) (rs2Of w))
  | 0b0000000#7, 0b001#3 => some (.sll (rdOf w) (rs1Of w) (rs2Of w))
  | 0b0000000#7, 0b010#3 => some (.slt (rdOf w) (rs1Of w) (rs2Of w))
  | 0b0000000#7, 0b011#3 => some (.sltu (rdOf w) (rs1Of w) (rs2Of w))
  | 0b0000000#7, 0b100#3 => some (.xor_ (rdOf w) (rs1Of w) (rs2Of w))
  | 0b0000000#7, 0b101#3 => some (.srl (rdOf w) (rs1Of w) (rs2Of w))
  | 0b0100000#7, 0b101#3 => some (.sra (rdOf w) (rs1Of w) (rs2Of w))
  | 0b0000000#7, 0b110#3 => some (.or_ (rdOf w) (rs1Of w) (rs2Of w))
  | 0b0000000#7, 0b111#3 => some (.and_ (rdOf w) (rs1Of w) (rs2Of w))
  | _, _ => none

/-- Opcode `0001111` by funct3; every other field is free (R328, R336). -/
def decodeMiscMem (w : Word) : Option Instr :=
  match funct3Of w with
  | 0b000#3 => some (.fence (fmOf w) (predOf w) (succOf w) (rs1Of w) (rdOf w))
  | 0b001#3 => some (.fencei (rdOf w) (rs1Of w) (immI w))
  | _ => none

/-- Opcode `1110011` by funct3; ECALL and EBREAK are one word each (R329). -/
def decodeSystem (w : Word) : Option Instr :=
  match funct3Of w with
  | 0b000#3 =>
    if w = 0x00000073#32 then some .ecall
    else if w = 0x00100073#32 then some .ebreak
    else none
  | 0b001#3 => some (.csrrw (rdOf w) (rs1Of w) (csrnoOf w))
  | 0b010#3 => some (.csrrs (rdOf w) (rs1Of w) (csrnoOf w))
  | 0b011#3 => some (.csrrc (rdOf w) (rs1Of w) (csrnoOf w))
  | 0b101#3 => some (.csrrwi (rdOf w) (uimmOf w) (csrnoOf w))
  | 0b110#3 => some (.csrrsi (rdOf w) (uimmOf w) (csrnoOf w))
  | 0b111#3 => some (.csrrci (rdOf w) (uimmOf w) (csrnoOf w))
  | _ => none

/-- `decode(w)`: exactly one variant or none, by the major opcode (R320, R330). There is no
fallback: every word outside the map gives `none` (R331 to R334). -/
def decode (w : Word) : Option Instr :=
  match opcodeOf w with
  | 0b0110111#7 => some (.lui (rdOf w) (immU w))
  | 0b0010111#7 => some (.auipc (rdOf w) (immU w))
  | 0b1101111#7 => some (.jal (rdOf w) (immJ w))
  | 0b1100111#7 =>
    if funct3Of w = 0b000#3 then some (.jalr (rdOf w) (rs1Of w) (immI w)) else none
  | 0b1100011#7 => decodeBranch w
  | 0b0000011#7 => decodeLoad w
  | 0b0100011#7 => decodeStore w
  | 0b0010011#7 => decodeOpImm w
  | 0b0110011#7 => decodeOp w
  | 0b0001111#7 => decodeMiscMem w
  | 0b1110011#7 => decodeSystem w
  | _ => none

/-! ## Bytes (R204, R205, R300) -/

/-- Why a list of bytes gives no instruction. -/
inductive DecodeError where
  /-- Fewer than the four bytes of an instruction (R300). -/
  | tooShort
  /-- The word is no instruction: `InvalidEncoding` (R331). -/
  | invalidEncoding (word : Word)
  deriving DecidableEq, Repr

/-- Four bytes, the first at the lowest address, as a word: little-endian (R205, R206). -/
def wordOfBytes (b0 b1 b2 b3 : Byte) : Word := b3 ++ b2 ++ b1 ++ b0

/-- The low `n` bytes of a value, least significant first (R204, R207). -/
def bytesOfWord (n : Nat) (v : Word) : List Byte :=
  (List.range n).map fun k => v.extractLsb' (8 * k) 8

/-- The decoder on bytes as they stand in memory: one instruction and the bytes after it, or a
named rejection. Total on every list. -/
def decodeBytes : List Byte → Except DecodeError (Instr × List Byte)
  | b0 :: b1 :: b2 :: b3 :: rest =>
    match decode (wordOfBytes b0 b1 b2 b3) with
    | some i => .ok (i, rest)
    | none => .error (.invalidEncoding (wordOfBytes b0 b1 b2 b3))
  | _ => .error .tooShort

/-- The word of an instruction numbered as spec/opcode_table.json numbers its bits, whose bits
at and above `nbits` are 0. -/
def tableWord (nbits w : Nat) : Word := BitVec.ofNat 32 (w % 2 ^ nbits)

/-- The instruction the decoder reads from the bytes of that word. -/
def decodeTableWord (nbits w : Nat) : Option Instr :=
  match decodeBytes (bytesOfWord 4 (tableWord nbits w)) with
  | .ok (i, _) => some i
  | .error _ => none

/-! ## The encoder: the format tables of R302 to R307 -/

/-- R format (R302). -/
def encR (funct7 : BitVec 7) (rs2 rs1 : Reg) (funct3 : BitVec 3) (rd : Reg)
    (opcode : BitVec 7) : Word :=
  funct7 ++ rs2 ++ rs1 ++ funct3 ++ rd ++ opcode

/-- I format: the field `imm[11:0]` in bits 31:20 (R303). -/
def encI (imm : BitVec 12) (rs1 : Reg) (funct3 : BitVec 3) (rd : Reg) (opcode : BitVec 7) : Word :=
  imm ++ rs1 ++ funct3 ++ rd ++ opcode

/-- S format (R304). -/
def encS (imm : Word) (rs2 rs1 : Reg) (funct3 : BitVec 3) (opcode : BitVec 7) : Word :=
  imm.extractLsb' 5 7 ++ rs2 ++ rs1 ++ funct3 ++ imm.extractLsb' 0 5 ++ opcode

/-- B format (R305). -/
def encB (imm : Word) (rs2 rs1 : Reg) (funct3 : BitVec 3) (opcode : BitVec 7) : Word :=
  imm.extractLsb' 12 1 ++ imm.extractLsb' 5 6 ++ rs2 ++ rs1 ++ funct3 ++ imm.extractLsb' 1 4
    ++ imm.extractLsb' 11 1 ++ opcode

/-- U format (R306). -/
def encU (imm : Word) (rd : Reg) (opcode : BitVec 7) : Word :=
  imm.extractLsb' 12 20 ++ rd ++ opcode

/-- J format (R307). -/
def encJ (imm : Word) (rd : Reg) (opcode : BitVec 7) : Word :=
  imm.extractLsb' 20 1 ++ imm.extractLsb' 1 10 ++ imm.extractLsb' 11 1 ++ imm.extractLsb' 12 8
    ++ rd ++ opcode

/-- The low 12 bits of an I immediate, as its field holds them (R310). -/
def low12 (imm : Word) : BitVec 12 := imm.extractLsb' 0 12

/-- The word of an instruction (R302 to R307 with the opcode map of R320 to R329). -/
def encode : Instr → Word
  | .lui rd imm => encU imm rd 0b0110111#7
  | .auipc rd imm => encU imm rd 0b0010111#7
  | .jal rd imm => encJ imm rd 0b1101111#7
  | .jalr rd rs1 imm => encI (low12 imm) rs1 0b000#3 rd 0b1100111#7
  | .beq rs1 rs2 imm => encB imm rs2 rs1 0b000#3 0b1100011#7
  | .bne rs1 rs2 imm => encB imm rs2 rs1 0b001#3 0b1100011#7
  | .blt rs1 rs2 imm => encB imm rs2 rs1 0b100#3 0b1100011#7
  | .bge rs1 rs2 imm => encB imm rs2 rs1 0b101#3 0b1100011#7
  | .bltu rs1 rs2 imm => encB imm rs2 rs1 0b110#3 0b1100011#7
  | .bgeu rs1 rs2 imm => encB imm rs2 rs1 0b111#3 0b1100011#7
  | .lb rd rs1 imm => encI (low12 imm) rs1 0b000#3 rd 0b0000011#7
  | .lh rd rs1 imm => encI (low12 imm) rs1 0b001#3 rd 0b0000011#7
  | .lw rd rs1 imm => encI (low12 imm) rs1 0b010#3 rd 0b0000011#7
  | .lbu rd rs1 imm => encI (low12 imm) rs1 0b100#3 rd 0b0000011#7
  | .lhu rd rs1 imm => encI (low12 imm) rs1 0b101#3 rd 0b0000011#7
  | .sb rs1 rs2 imm => encS imm rs2 rs1 0b000#3 0b0100011#7
  | .sh rs1 rs2 imm => encS imm rs2 rs1 0b001#3 0b0100011#7
  | .sw rs1 rs2 imm => encS imm rs2 rs1 0b010#3 0b0100011#7
  | .addi rd rs1 imm => encI (low12 imm) rs1 0b000#3 rd 0b0010011#7
  | .slti rd rs1 imm => encI (low12 imm) rs1 0b010#3 rd 0b0010011#7
  | .sltiu rd rs1 imm => encI (low12 imm) rs1 0b011#3 rd 0b0010011#7
  | .xori rd rs1 imm => encI (low12 imm) rs1 0b100#3 rd 0b0010011#7
  | .ori rd rs1 imm => encI (low12 imm) rs1 0b110#3 rd 0b0010011#7
  | .andi rd rs1 imm => encI (low12 imm) rs1 0b111#3 rd 0b0010011#7
  | .slli rd rs1 shamt => encR 0b0000000#7 shamt rs1 0b001#3 rd 0b0010011#7
  | .srli rd rs1 shamt => encR 0b0000000#7 shamt rs1 0b101#3 rd 0b0010011#7
  | .srai rd rs1 shamt => encR 0b0100000#7 shamt rs1 0b101#3 rd 0b0010011#7
  | .add rd rs1 rs2 => encR 0b0000000#7 rs2 rs1 0b000#3 rd 0b0110011#7
  | .sub rd rs1 rs2 => encR 0b0100000#7 rs2 rs1 0b000#3 rd 0b0110011#7
  | .sll rd rs1 rs2 => encR 0b0000000#7 rs2 rs1 0b001#3 rd 0b0110011#7
  | .slt rd rs1 rs2 => encR 0b0000000#7 rs2 rs1 0b010#3 rd 0b0110011#7
  | .sltu rd rs1 rs2 => encR 0b0000000#7 rs2 rs1 0b011#3 rd 0b0110011#7
  | .xor_ rd rs1 rs2 => encR 0b0000000#7 rs2 rs1 0b100#3 rd 0b0110011#7
  | .srl rd rs1 rs2 => encR 0b0000000#7 rs2 rs1 0b101#3 rd 0b0110011#7
  | .sra rd rs1 rs2 => encR 0b0100000#7 rs2 rs1 0b101#3 rd 0b0110011#7
  | .or_ rd rs1 rs2 => encR 0b0000000#7 rs2 rs1 0b110#3 rd 0b0110011#7
  | .and_ rd rs1 rs2 => encR 0b0000000#7 rs2 rs1 0b111#3 rd 0b0110011#7
  | .fence fm pred succ rs1 rd => encI (fm ++ pred ++ succ) rs1 0b000#3 rd 0b0001111#7
  | .fencei rd rs1 imm => encI (low12 imm) rs1 0b001#3 rd 0b0001111#7
  | .ecall => encI 0#12 0#5 0b000#3 0#5 0b1110011#7
  | .ebreak => encI 1#12 0#5 0b000#3 0#5 0b1110011#7
  | .csrrw rd rs1 csrno => encI csrno rs1 0b001#3 rd 0b1110011#7
  | .csrrs rd rs1 csrno => encI csrno rs1 0b010#3 rd 0b1110011#7
  | .csrrc rd rs1 csrno => encI csrno rs1 0b011#3 rd 0b1110011#7
  | .csrrwi rd uimm csrno => encI csrno uimm 0b101#3 rd 0b1110011#7
  | .csrrsi rd uimm csrno => encI csrno uimm 0b110#3 rd 0b1110011#7
  | .csrrci rd uimm csrno => encI csrno uimm 0b111#3 rd 0b1110011#7

/-! ## The accessors of a decoded instruction (R308, R339) -/

/-- The six formats (R302 to R307). -/
inductive Format where
  | R | I | S | B | U | J
  deriving DecidableEq, Repr

/-- The format column of spec/opcode_table.json. -/
def formatOf : Instr → Format
  | .lui _ _ | .auipc _ _ => .U
  | .jal _ _ => .J
  | .beq _ _ _ | .bne _ _ _ | .blt _ _ _ | .bge _ _ _ | .bltu _ _ _ | .bgeu _ _ _ => .B
  | .sb _ _ _ | .sh _ _ _ | .sw _ _ _ => .S
  | .add _ _ _ | .sub _ _ _ | .sll _ _ _ | .slt _ _ _ | .sltu _ _ _ | .xor_ _ _ _ | .srl _ _ _
  | .sra _ _ _ | .or_ _ _ _ | .and_ _ _ _ => .R
  | .jalr _ _ _ | .lb _ _ _ | .lh _ _ _ | .lw _ _ _ | .lbu _ _ _ | .lhu _ _ _
  | .addi _ _ _ | .slti _ _ _ | .sltiu _ _ _ | .xori _ _ _ | .ori _ _ _ | .andi _ _ _
  | .slli _ _ _ | .srli _ _ _ | .srai _ _ _ | .fence _ _ _ _ _ | .fencei _ _ _ | .ecall | .ebreak
  | .csrrw _ _ _ | .csrrs _ _ _ | .csrrc _ _ _ | .csrrwi _ _ _ | .csrrsi _ _ _
  | .csrrci _ _ _ => .I

/-- What a variant's accessors expose; `none` where its format has no such field (R339). -/
structure Accessors where
  rd : Option Reg := none
  rs1 : Option Reg := none
  rs2 : Option Reg := none
  imm : Option Word := none
  funct3 : Option (BitVec 3) := none
  funct7 : Option (BitVec 7) := none
  shamt : Option (BitVec 5) := none
  csrno : Option CsrIdx := none
  uimm : Option Word := none
  deriving DecidableEq, Repr

/-- R: `rd`, `rs1`, `rs2`, `funct3`, `funct7`. -/
def viewR (rd rs1 rs2 : Reg) (funct3 : BitVec 3) (funct7 : BitVec 7) : Accessors :=
  { rd := some rd, rs1 := some rs1, rs2 := some rs2, funct3 := some funct3,
    funct7 := some funct7 }

/-- I: `rd`, `rs1`, `imm`. -/
def viewI (rd rs1 : Reg) (imm : Word) : Accessors :=
  { rd := some rd, rs1 := some rs1, imm := some imm }

/-- S and B: `rs1`, `rs2`, `imm`. -/
def viewSB (rs1 rs2 : Reg) (imm : Word) : Accessors :=
  { rs1 := some rs1, rs2 := some rs2, imm := some imm }

/-- U and J: `rd`, `imm`. -/
def viewUJ (rd : Reg) (imm : Word) : Accessors := { rd := some rd, imm := some imm }

/-- I of a CSR instruction with a register source: `csrno` beside the I fields. -/
def viewCsr (rd rs1 : Reg) (csrno : CsrIdx) : Accessors :=
  { viewI rd rs1 (csrno.signExtend 32) with csrno := some csrno }

/-- I of a CSR immediate form: `uimm` in place of `rs1`. -/
def viewCsrImm (rd : Reg) (uimm : BitVec 5) (csrno : CsrIdx) : Accessors :=
  { rd := some rd, imm := some (csrno.signExtend 32), csrno := some csrno,
    uimm := some (uimm.setWidth 32) }

/-- The accessors of a decoded instruction (R339). The immediate of a shift-immediate, a fence or
an environment instruction is the I immediate of its word (R303, R310). DEDUCED
(notes/assumptions/6.md). -/
def accessors : Instr → Accessors
  | .lui rd imm | .auipc rd imm | .jal rd imm => viewUJ rd imm
  | .jalr rd rs1 imm => viewI rd rs1 imm
  | .beq rs1 rs2 imm | .bne rs1 rs2 imm | .blt rs1 rs2 imm | .bge rs1 rs2 imm
  | .bltu rs1 rs2 imm | .bgeu rs1 rs2 imm => viewSB rs1 rs2 imm
  | .lb rd rs1 imm | .lh rd rs1 imm | .lw rd rs1 imm | .lbu rd rs1 imm | .lhu rd rs1 imm =>
    viewI rd rs1 imm
  | .sb rs1 rs2 imm | .sh rs1 rs2 imm | .sw rs1 rs2 imm => viewSB rs1 rs2 imm
  | .addi rd rs1 imm | .slti rd rs1 imm | .sltiu rd rs1 imm | .xori rd rs1 imm
  | .ori rd rs1 imm | .andi rd rs1 imm => viewI rd rs1 imm
  | .slli rd rs1 shamt | .srli rd rs1 shamt =>
    { viewI rd rs1 ((0b0000000#7 ++ shamt).signExtend 32) with shamt := some shamt }
  | .srai rd rs1 shamt =>
    { viewI rd rs1 ((0b0100000#7 ++ shamt).signExtend 32) with shamt := some shamt }
  | .add rd rs1 rs2 => viewR rd rs1 rs2 0b000#3 0b0000000#7
  | .sub rd rs1 rs2 => viewR rd rs1 rs2 0b000#3 0b0100000#7
  | .sll rd rs1 rs2 => viewR rd rs1 rs2 0b001#3 0b0000000#7
  | .slt rd rs1 rs2 => viewR rd rs1 rs2 0b010#3 0b0000000#7
  | .sltu rd rs1 rs2 => viewR rd rs1 rs2 0b011#3 0b0000000#7
  | .xor_ rd rs1 rs2 => viewR rd rs1 rs2 0b100#3 0b0000000#7
  | .srl rd rs1 rs2 => viewR rd rs1 rs2 0b101#3 0b0000000#7
  | .sra rd rs1 rs2 => viewR rd rs1 rs2 0b101#3 0b0100000#7
  | .or_ rd rs1 rs2 => viewR rd rs1 rs2 0b110#3 0b0000000#7
  | .and_ rd rs1 rs2 => viewR rd rs1 rs2 0b111#3 0b0000000#7
  | .fence fm pred succ rs1 rd => viewI rd rs1 ((fm ++ pred ++ succ).signExtend 32)
  | .fencei rd rs1 imm => viewI rd rs1 imm
  | .ecall => viewI 0 0 0
  | .ebreak => viewI 0 0 1
  | .csrrw rd rs1 csrno | .csrrs rd rs1 csrno | .csrrc rd rs1 csrno => viewCsr rd rs1 csrno
  | .csrrwi rd uimm csrno | .csrrsi rd uimm csrno | .csrrci rd uimm csrno =>
    viewCsrImm rd uimm csrno

/-- The fields of a word in the view of a format (R301, R308). -/
def bitfieldView (f : Format) (w : Word) : Accessors :=
  match f with
  | .R => viewR (rdOf w) (rs1Of w) (rs2Of w) (funct3Of w) (funct7Of w)
  | .I => viewI (rdOf w) (rs1Of w) (immI w)
  | .S => viewSB (rs1Of w) (rs2Of w) (immS w)
  | .B => viewSB (rs1Of w) (rs2Of w) (immB w)
  | .U => viewUJ (rdOf w) (immU w)
  | .J => viewUJ (rdOf w) (immJ w)

/-- What the accessors of a variant read from its word: the view of its format, and for the
shift-immediates `shamt`, for the CSR instructions `csrno` and, for the immediate forms, `uimm`
in place of `rs1` (R339). -/
def wordAccessors (i : Instr) (w : Word) : Accessors :=
  let view := bitfieldView (formatOf i) w
  match i with
  | .slli _ _ _ | .srli _ _ _ | .srai _ _ _ => { view with shamt := some (shamtOf w) }
  | .csrrw _ _ _ | .csrrs _ _ _ | .csrrc _ _ _ => { view with csrno := some (csrnoOf w) }
  | .csrrwi _ _ _ | .csrrsi _ _ _ | .csrrci _ _ _ =>
    { view with
      rs1 := none, csrno := some (csrnoOf w), uimm := some ((uimmOf w).setWidth 32) }
  | _ => view

/-! ## The opcode table as data (spec/opcode_table.json) -/

/-- A row of spec/opcode_table.json: a word is an instance when `w &&& mask = pattern`. -/
structure OpcodeRow where
  mnemonic : String
  pattern : Word
  mask : Word
  deriving DecidableEq, Repr

/-- The row's test on a word. -/
def OpcodeRow.matches (row : OpcodeRow) (w : Word) : Prop := w &&& row.mask = row.pattern

/-- The row of an instruction: its `mnemonic`, `match` and `mask` in spec/opcode_table.json. -/
def rowOf : Instr → OpcodeRow
  | .lui _ _ => ⟨"LUI", 0x00000037, 0x0000007F⟩
  | .auipc _ _ => ⟨"AUIPC", 0x00000017, 0x0000007F⟩
  | .jal _ _ => ⟨"JAL", 0x0000006F, 0x0000007F⟩
  | .jalr _ _ _ => ⟨"JALR", 0x00000067, 0x0000707F⟩
  | .beq _ _ _ => ⟨"BEQ", 0x00000063, 0x0000707F⟩
  | .bne _ _ _ => ⟨"BNE", 0x00001063, 0x0000707F⟩
  | .blt _ _ _ => ⟨"BLT", 0x00004063, 0x0000707F⟩
  | .bge _ _ _ => ⟨"BGE", 0x00005063, 0x0000707F⟩
  | .bltu _ _ _ => ⟨"BLTU", 0x00006063, 0x0000707F⟩
  | .bgeu _ _ _ => ⟨"BGEU", 0x00007063, 0x0000707F⟩
  | .lb _ _ _ => ⟨"LB", 0x00000003, 0x0000707F⟩
  | .lh _ _ _ => ⟨"LH", 0x00001003, 0x0000707F⟩
  | .lw _ _ _ => ⟨"LW", 0x00002003, 0x0000707F⟩
  | .lbu _ _ _ => ⟨"LBU", 0x00004003, 0x0000707F⟩
  | .lhu _ _ _ => ⟨"LHU", 0x00005003, 0x0000707F⟩
  | .sb _ _ _ => ⟨"SB", 0x00000023, 0x0000707F⟩
  | .sh _ _ _ => ⟨"SH", 0x00001023, 0x0000707F⟩
  | .sw _ _ _ => ⟨"SW", 0x00002023, 0x0000707F⟩
  | .addi _ _ _ => ⟨"ADDI", 0x00000013, 0x0000707F⟩
  | .slti _ _ _ => ⟨"SLTI", 0x00002013, 0x0000707F⟩
  | .sltiu _ _ _ => ⟨"SLTIU", 0x00003013, 0x0000707F⟩
  | .xori _ _ _ => ⟨"XORI", 0x00004013, 0x0000707F⟩
  | .ori _ _ _ => ⟨"ORI", 0x00006013, 0x0000707F⟩
  | .andi _ _ _ => ⟨"ANDI", 0x00007013, 0x0000707F⟩
  | .slli _ _ _ => ⟨"SLLI", 0x00001013, 0xFE00707F⟩
  | .srli _ _ _ => ⟨"SRLI", 0x00005013, 0xFE00707F⟩
  | .srai _ _ _ => ⟨"SRAI", 0x40005013, 0xFE00707F⟩
  | .add _ _ _ => ⟨"ADD", 0x00000033, 0xFE00707F⟩
  | .sub _ _ _ => ⟨"SUB", 0x40000033, 0xFE00707F⟩
  | .sll _ _ _ => ⟨"SLL", 0x00001033, 0xFE00707F⟩
  | .slt _ _ _ => ⟨"SLT", 0x00002033, 0xFE00707F⟩
  | .sltu _ _ _ => ⟨"SLTU", 0x00003033, 0xFE00707F⟩
  | .xor_ _ _ _ => ⟨"XOR", 0x00004033, 0xFE00707F⟩
  | .srl _ _ _ => ⟨"SRL", 0x00005033, 0xFE00707F⟩
  | .sra _ _ _ => ⟨"SRA", 0x40005033, 0xFE00707F⟩
  | .or_ _ _ _ => ⟨"OR", 0x00006033, 0xFE00707F⟩
  | .and_ _ _ _ => ⟨"AND", 0x00007033, 0xFE00707F⟩
  | .fence _ _ _ _ _ => ⟨"FENCE", 0x0000000F, 0x0000707F⟩
  | .fencei _ _ _ => ⟨"FENCE.I", 0x0000100F, 0x0000707F⟩
  | .ecall => ⟨"ECALL", 0x00000073, 0xFFFFFFFF⟩
  | .ebreak => ⟨"EBREAK", 0x00100073, 0xFFFFFFFF⟩
  | .csrrw _ _ _ => ⟨"CSRRW", 0x00001073, 0x0000707F⟩
  | .csrrs _ _ _ => ⟨"CSRRS", 0x00002073, 0x0000707F⟩
  | .csrrc _ _ _ => ⟨"CSRRC", 0x00003073, 0x0000707F⟩
  | .csrrwi _ _ _ => ⟨"CSRRWI", 0x00005073, 0x0000707F⟩
  | .csrrsi _ _ _ => ⟨"CSRRSI", 0x00006073, 0x0000707F⟩
  | .csrrci _ _ _ => ⟨"CSRRCI", 0x00007073, 0x0000707F⟩

end Sys2Proof
end

