-- ==== Sys2Proof/Machine/Ops.lean ====
section
/-! DEFINITION. The named operations over registers, CSRs and memory (R22 to R25), the fetch, and
raising a failure. Memory and the CSR file are sparse lists with one set of operations. -/

namespace Sys2Proof.Machine

/-! ## Sparse storage -/

/-- The value stored under key `k`, `dflt` where nothing is listed. -/
def cellGet {w : Nat} (dflt : BitVec w) (k : Nat) : List (Nat × BitVec w) → BitVec w
  | [] => dflt
  | c :: rest => if c.1 = k then c.2 else cellGet dflt k rest

/-- Put a pair before the first larger key. -/
def cellInsert {w : Nat} (k : Nat) (v : BitVec w) : List (Nat × BitVec w) → List (Nat × BitVec w)
  | [] => [(k, v)]
  | c :: rest => if k < c.1 then (k, v) :: c :: rest else c :: cellInsert k v rest

/-- Remove every pair with key `k`. -/
def cellRemove {w : Nat} (k : Nat) : List (Nat × BitVec w) → List (Nat × BitVec w)
  | [] => []
  | c :: rest => if c.1 = k then cellRemove k rest else c :: cellRemove k rest

/-- Store `v` under key `k`; storing `dflt` removes the entry. -/
def cellPut {w : Nat} (dflt : BitVec w) (k : Nat) (v : BitVec w) (cells : List (Nat × BitVec w)) :
    List (Nat × BitVec w) :=
  if v = dflt then cellRemove k cells else cellInsert k v (cellRemove k cells)

/-- The canonical form above a key: keys at least `lo`, strictly rising, below `bound`, and no
value equal to `dflt`. -/
def cellsWf {w : Nat} (dflt : BitVec w) (bound : Nat) : Nat → List (Nat × BitVec w) → Bool
  | _, [] => true
  | lo, c :: rest =>
    decide (lo ≤ c.1) && decide (c.1 < bound) && decide (c.2 ≠ dflt)
      && cellsWf dflt bound (c.1 + 1) rest

/-! ## General registers (R22, R101 to R103) -/

/-- `x[r]`: register 0 reads as zero (R102). -/
def State.x (s : State) (r : Reg) : Word :=
  if r = 0#5 then 0#32 else s.regs[r.toNat]'r.isLt

/-- `x[r] <- v`: a write to register 0 is discarded (R103). -/
def State.setX (s : State) (r : Reg) (v : Word) : State :=
  if r = 0#5 then s else { s with regs := s.regs.set r.toNat v r.isLt }

/-- `pc <- t` (R25). -/
def State.setPc (s : State) (t : Word) : State := { s with pc := t }

/-- `A + 4` modulo 2^32: the next sequential address, and the link of a jump (R107, R109). -/
def State.nextPc (s : State) : Word := s.pc + 4#32

/-! ## CSR file (R23, R111, R112) -/

/-- `csr[c]`. -/
def State.csrRead (s : State) (c : CsrIdx) : Word := cellGet csrUnlisted c.toNat s.csr

/-- `csr[c] <- v`. -/
def State.csrWrite (s : State) (c : CsrIdx) (v : Word) : State :=
  { s with csr := cellPut csrUnlisted c.toNat v s.csr }

/-- The CSR file is in canonical form, with no index past the last CSR. -/
def State.csrWf (s : State) : Bool := cellsWf csrUnlisted Config.numCsr 0 s.csr

/-! ## Memory (R24, R200 to R207) -/

/-- `mem[a]`. -/
def Memory.byte (m : Memory) (a : Nat) : Byte := cellGet Memory.unlisted a m.cells

/-- `mem[a] <- b`. -/
def Memory.setByte (m : Memory) (a : Nat) (b : Byte) : Memory :=
  { m with cells := cellPut Memory.unlisted a b m.cells }

/-- The canonical form of memory: addresses strictly rising and below `MEM_SIZE`, and no entry
equal to what an unlisted address reads as. -/
def Memory.wf (m : Memory) : Bool := cellsWf Memory.unlisted m.size 0 m.cells

/-- `InBounds(a, n)`, in natural numbers: an access never wraps inside the buffer (R203). -/
abbrev Memory.InBounds (m : Memory) (a : Word) (n : Nat) : Prop := a.toNat + n ≤ m.size

/-- `MemRead(a, 1)` (R206). -/
def Memory.read8 (m : Memory) (a : Nat) : BitVec 8 := m.byte a

/-- `MemRead(a, 2) = mem[a+1] || mem[a]` (R206). -/
def Memory.read16 (m : Memory) (a : Nat) : BitVec 16 := m.byte (a + 1) ++ m.byte a

/-- `MemRead(a, 4) = mem[a+3] || mem[a+2] || mem[a+1] || mem[a]` (R206). -/
def Memory.read32 (m : Memory) (a : Nat) : BitVec 32 :=
  wordOfBytes (m.byte a) (m.byte (a + 1)) (m.byte (a + 2)) (m.byte (a + 3))

/-- Store bytes at rising addresses, the first at `a`. -/
def Memory.writeBytes (m : Memory) (a : Nat) : List Byte → Memory
  | [] => m
  | b :: rest => (m.setByte a b).writeBytes (a + 1) rest

/-- `MemWrite(a, n, v)` with `v` the low `8n` bits of a word, little-endian (R207). -/
def Memory.write (m : Memory) (a : Nat) (n : Nat) (v : Word) : Memory :=
  m.writeBytes a (bytesOfWord n v)

/-! ## Failures (R25, R700, R704)

The core has no trap: no failure saves a register, changes a mode or moves the pc (R709), and
there is no return (R710). Raising one ends the step with the failure, which is handed to the
host. The outcome holds no new state, so the state after the step is the one before it
(notes/assumptions/5.md). -/

/-- `raise F`. -/
def raise (f : Fault) : Result := .fault f

/-! ## Fetch (R132, R133, R205) -/

/-- The raw word at the pc, little-endian. -/
def fetchWord (s : State) : Word := s.mem.read32 s.pc.toNat

/-- The instruction of this step, or the failure of its fetch or decode, in the order of R706:
bounds, then encoding. No alignment is checked (R210). -/
def fetchDecode (s : State) : Except Fault Instr :=
  if s.mem.InBounds s.pc 4 then
    match decode (fetchWord s) with
    | some i => .ok i
    | none => .error (.invalidEncoding (fetchWord s) s.pc)
  else .error (.outOfBoundsAccess s.pc 4)

/-- A word stored where the next fetch reads, if that lies in memory. -/
def placeWord (s : State) (w : Word) : State :=
  if s.mem.InBounds s.pc 4 then
    { s with mem := s.mem.write s.pc.toNat 4 w }
  else s

end Sys2Proof.Machine
end

