-- ==== Sys2Proof/Machine/Operands.lean ====
section
/-! DEFINITION. The operand forms (R316): register, immediate, register plus immediate, pc plus
immediate; and the shared shapes of the instruction families, each a step from its operands to
the outcome. In every one `s.pc` is the instruction's own address `A` (notes/assumptions/3.md). -/

namespace Sys2Proof.Machine

/-- Register plus immediate, modulo 2^32: the effective address of a load or store (R460, R480)
and the sum of JALR (R421). -/
def effAddr (rs1 : Reg) (imm : Word) (s : State) : Word := s.x rs1 + imm

/-- Pc plus immediate, modulo 2^32, from the instruction's own address (R107, R109). -/
def pcRel (imm : Word) (s : State) : Word := s.pc + imm

/-- Bit 0 cleared (R421). -/
def clearBit0 (t : Word) : Word := t &&& 0xFFFFFFFE#32

/-- A shift count in a register: its low 5 bits (R543, R547, R548). -/
def shiftCount (v : Word) : Nat := (v.extractLsb' 0 5).toNat

/-- `zext_32` of a CSR immediate (R315). -/
def csrImm (uimm : BitVec 5) : Word := uimm.setWidth 32

/-- `x[rd] <- v; pc <- A + 4` (R400, R500, R540). -/
def writeRegNext (rd : Reg) (v : Word) (s : State) : Result :=
  .next ((s.setX rd v).setPc s.nextPc)

/-- `x[rd] <- A + 4; pc <- t` (R420, R421). -/
def jumpLink (rd : Reg) (t : Word) (s : State) : Result :=
  .next ((s.setX rd s.nextPc).setPc t)

/-- `if cond then pc <- A + imm else pc stays A + 4` (R440). -/
def branchIf (cond : Bool) (imm : Word) (s : State) : Result :=
  .next (s.setPc (if cond then pcRel imm s else s.nextPc))

/-- The common load rule (R460) for width `n`, where `value m a` reads memory at `a` and extends
to 32 bits. The bounds check comes first, whatever `rd` is. -/
def loadReg (n : Nat) (value : Memory → Nat → Word) (rd rs1 : Reg) (imm : Word) (s : State) :
    Result :=
  if s.mem.InBounds (effAddr rs1 imm s) n then
    writeRegNext rd (value s.mem (effAddr rs1 imm s).toNat) s
  else raise (.outOfBoundsAccess (effAddr rs1 imm s) n)

/-- The common store rule (R480) for width `n`: the low `8n` bits of `x[rs2]`. -/
def storeReg (n : Nat) (rs1 rs2 : Reg) (imm : Word) (s : State) : Result :=
  if s.mem.InBounds (effAddr rs1 imm s) n then
    .next ({ s with mem := s.mem.write (effAddr rs1 imm s).toNat n (s.x rs2) }.setPc s.nextPc)
  else raise (.outOfBoundsAccess (effAddr rs1 imm s) n)

/-- The common CSR rule (R600): `old` and the source are read before `rd` is written (R105). -/
def csrUpdate (f : Word → Word → Word) (rd : Reg) (c : CsrIdx) (src : Word) (s : State) : Result :=
  .next (((s.setX rd (s.csrRead c)).csrWrite c (f (s.csrRead c) src)).setPc s.nextPc)

/-- The common rule of FENCE, FENCE.I, ECALL and EBREAK (R580). -/
def unsupported (variant : Instr) : Result := raise (.unsupportedInstruction variant)

end Sys2Proof.Machine
end

