-- ==== Sys2Proof/Machine/AluImmediate.lean ====
section
/-! DEFINITION. The nine register-immediate ALU instructions (45_alu_immediate.md). -/

namespace Sys2Proof.Machine

/-- `x[rd] <- x[rs1] + imm` modulo 2^32 (R501). -/
def execAddi (rd rs1 : Reg) (imm : Word) (s : State) : Result :=
  writeRegNext rd (s.x rs1 + imm) s

/-- Set if less than the sign-extended immediate, signed (R502). -/
def execSlti (rd rs1 : Reg) (imm : Word) (s : State) : Result :=
  writeRegNext rd (setIf (cmpLtS (s.x rs1) imm)) s

/-- Set if less than the sign-extended immediate read unsigned (R503). -/
def execSltiu (rd rs1 : Reg) (imm : Word) (s : State) : Result :=
  writeRegNext rd (setIf (cmpLtU (s.x rs1) imm)) s

/-- `x[rd] <- x[rs1] ^ imm` (R504). -/
def execXori (rd rs1 : Reg) (imm : Word) (s : State) : Result :=
  writeRegNext rd (s.x rs1 ^^^ imm) s

/-- `x[rd] <- x[rs1] | imm` (R505). -/
def execOri (rd rs1 : Reg) (imm : Word) (s : State) : Result :=
  writeRegNext rd (s.x rs1 ||| imm) s

/-- `x[rd] <- x[rs1] & imm` (R506). -/
def execAndi (rd rs1 : Reg) (imm : Word) (s : State) : Result :=
  writeRegNext rd (s.x rs1 &&& imm) s

/-- `x[rd] <- x[rs1] << shamt` (R507). -/
def execSlli (rd rs1 : Reg) (shamt : BitVec 5) (s : State) : Result :=
  writeRegNext rd (s.x rs1 <<< shamt.toNat) s

/-- `x[rd] <- x[rs1] >>u shamt` (R508). -/
def execSrli (rd rs1 : Reg) (shamt : BitVec 5) (s : State) : Result :=
  writeRegNext rd (s.x rs1 >>> shamt.toNat) s

/-- `x[rd] <- x[rs1] >>s shamt` (R509). -/
def execSrai (rd rs1 : Reg) (shamt : BitVec 5) (s : State) : Result :=
  writeRegNext rd ((s.x rs1).sshiftRight shamt.toNat) s

end Sys2Proof.Machine
end

