-- ==== Sys2Proof/Machine/AluRegister.lean ====
section
/-! DEFINITION. The ten register-register ALU instructions (46_alu_register.md). -/

namespace Sys2Proof.Machine

/-- `x[rd] <- x[rs1] + x[rs2]` modulo 2^32 (R541). -/
def execAdd (rd rs1 rs2 : Reg) (s : State) : Result := writeRegNext rd (s.x rs1 + s.x rs2) s

/-- `x[rd] <- x[rs1] - x[rs2]` modulo 2^32 (R542). -/
def execSub (rd rs1 rs2 : Reg) (s : State) : Result := writeRegNext rd (s.x rs1 - s.x rs2) s

/-- `x[rd] <- x[rs1] << u(x[rs2][4:0])` (R543). -/
def execSll (rd rs1 rs2 : Reg) (s : State) : Result :=
  writeRegNext rd (s.x rs1 <<< shiftCount (s.x rs2)) s

/-- Set if less than, signed (R544). -/
def execSlt (rd rs1 rs2 : Reg) (s : State) : Result :=
  writeRegNext rd (setIf (cmpLtS (s.x rs1) (s.x rs2))) s

/-- Set if less than, unsigned (R545). -/
def execSltu (rd rs1 rs2 : Reg) (s : State) : Result :=
  writeRegNext rd (setIf (cmpLtU (s.x rs1) (s.x rs2))) s

/-- `x[rd] <- x[rs1] ^ x[rs2]` (R546). -/
def execXor (rd rs1 rs2 : Reg) (s : State) : Result := writeRegNext rd (s.x rs1 ^^^ s.x rs2) s

/-- `x[rd] <- x[rs1] >>u u(x[rs2][4:0])` (R547). -/
def execSrl (rd rs1 rs2 : Reg) (s : State) : Result :=
  writeRegNext rd (s.x rs1 >>> shiftCount (s.x rs2)) s

/-- `x[rd] <- x[rs1] >>s u(x[rs2][4:0])` (R548). -/
def execSra (rd rs1 rs2 : Reg) (s : State) : Result :=
  writeRegNext rd ((s.x rs1).sshiftRight (shiftCount (s.x rs2))) s

/-- `x[rd] <- x[rs1] | x[rs2]` (R549). -/
def execOr (rd rs1 rs2 : Reg) (s : State) : Result := writeRegNext rd (s.x rs1 ||| s.x rs2) s

/-- `x[rd] <- x[rs1] & x[rs2]` (R550). -/
def execAnd (rd rs1 rs2 : Reg) (s : State) : Result := writeRegNext rd (s.x rs1 &&& s.x rs2) s

end Sys2Proof.Machine
end

