-- ==== Sys2Proof/Machine/Branches.lean ====
section
/-! DEFINITION. The six conditional branches (42_branches.md). -/

namespace Sys2Proof.Machine

/-- Equal (R441). -/
def execBeq (rs1 rs2 : Reg) (imm : Word) (s : State) : Result :=
  branchIf (cmpEq (s.x rs1) (s.x rs2)) imm s

/-- Not equal (R442). -/
def execBne (rs1 rs2 : Reg) (imm : Word) (s : State) : Result :=
  branchIf (!cmpEq (s.x rs1) (s.x rs2)) imm s

/-- Less than, signed (R443). -/
def execBlt (rs1 rs2 : Reg) (imm : Word) (s : State) : Result :=
  branchIf (cmpLtS (s.x rs1) (s.x rs2)) imm s

/-- Greater or equal, signed (R444). -/
def execBge (rs1 rs2 : Reg) (imm : Word) (s : State) : Result :=
  branchIf (!cmpLtS (s.x rs1) (s.x rs2)) imm s

/-- Less than, unsigned (R445). -/
def execBltu (rs1 rs2 : Reg) (imm : Word) (s : State) : Result :=
  branchIf (cmpLtU (s.x rs1) (s.x rs2)) imm s

/-- Greater or equal, unsigned (R446). -/
def execBgeu (rs1 rs2 : Reg) (imm : Word) (s : State) : Result :=
  branchIf (!cmpLtU (s.x rs1) (s.x rs2)) imm s

end Sys2Proof.Machine
end

