-- ==== Sys2Proof/Machine/Csr.lean ====
section
/-! DEFINITION. The six CSR instructions (48_csr.md). Every CSR is plain storage (R112). -/

namespace Sys2Proof.Machine

/-- Replace (R601, R604). -/
def csrReplace (_old src : Word) : Word := src

/-- Set the source's bits (R602, R605). -/
def csrSetBits (old src : Word) : Word := old ||| src

/-- Clear the source's bits (R603, R606). -/
def csrClearBits (old src : Word) : Word := old &&& ~~~src

/-- Read and write (R601). -/
def execCsrrw (rd rs1 : Reg) (c : CsrIdx) (s : State) : Result :=
  csrUpdate csrReplace rd c (s.x rs1) s

/-- Read and set bits (R602). -/
def execCsrrs (rd rs1 : Reg) (c : CsrIdx) (s : State) : Result :=
  csrUpdate csrSetBits rd c (s.x rs1) s

/-- Read and clear bits (R603). -/
def execCsrrc (rd rs1 : Reg) (c : CsrIdx) (s : State) : Result :=
  csrUpdate csrClearBits rd c (s.x rs1) s

/-- Read and write immediate (R604). -/
def execCsrrwi (rd : Reg) (uimm : BitVec 5) (c : CsrIdx) (s : State) : Result :=
  csrUpdate csrReplace rd c (csrImm uimm) s

/-- Read and set bits immediate (R605). -/
def execCsrrsi (rd : Reg) (uimm : BitVec 5) (c : CsrIdx) (s : State) : Result :=
  csrUpdate csrSetBits rd c (csrImm uimm) s

/-- Read and clear bits immediate (R606). -/
def execCsrrci (rd : Reg) (uimm : BitVec 5) (c : CsrIdx) (s : State) : Result :=
  csrUpdate csrClearBits rd c (csrImm uimm) s

end Sys2Proof.Machine
end

