-- ==== Sys2Proof/Machine/FenceSystem.lean ====
section
/-! DEFINITION. FENCE, FENCE.I, ECALL and EBREAK (47_fence_system.md): each decodes, has no
execution semantics, and ends the step with `UnsupportedInstruction` of the decoded instruction
(R580). The state is unchanged. -/

namespace Sys2Proof.Machine

/-- `raise UnsupportedInstruction(FENCE)` (R581). -/
def execFence (fm pred succ : BitVec 4) (rs1 rd : Reg) (_s : State) : Result :=
  unsupported (.fence fm pred succ rs1 rd)

/-- `raise UnsupportedInstruction(FENCE.I)` (R582). -/
def execFencei (rd rs1 : Reg) (imm : Word) (_s : State) : Result :=
  unsupported (.fencei rd rs1 imm)

/-- `raise UnsupportedInstruction(ECALL)`; no environment-call exception (R583). -/
def execEcall (_s : State) : Result := unsupported .ecall

/-- `raise UnsupportedInstruction(EBREAK)`; no breakpoint exception (R584). -/
def execEbreak (_s : State) : Result := unsupported .ebreak

end Sys2Proof.Machine
end

