-- ==== Sys2Proof/Machine/Jumps.lean ====
section
/-! DEFINITION. JAL and JALR (41_jumps.md). The target is not checked (R422). -/

namespace Sys2Proof.Machine

/-- `x[rd] <- A + 4; pc <- A + imm` (R420). -/
def execJal (rd : Reg) (imm : Word) (s : State) : Result := jumpLink rd (pcRel imm s) s

/-- `x[rd] <- A + 4; pc <- (x[rs1] + imm) & ~1`, with the old `x[rs1]` (R421). -/
def execJalr (rd rs1 : Reg) (imm : Word) (s : State) : Result :=
  jumpLink rd (clearBit0 (effAddr rs1 imm s)) s

end Sys2Proof.Machine
end

