-- ==== Sys2Proof/Machine/Loads.lean ====
section
/-! DEFINITION. The five loads (43_loads.md). No alignment is required (R209). -/

namespace Sys2Proof.Machine

/-- One byte, sign-extended (R461). -/
def execLb (rd rs1 : Reg) (imm : Word) (s : State) : Result :=
  loadReg 1 (fun m a => (m.read8 a).signExtend 32) rd rs1 imm s

/-- Two bytes, sign-extended (R462). -/
def execLh (rd rs1 : Reg) (imm : Word) (s : State) : Result :=
  loadReg 2 (fun m a => (m.read16 a).signExtend 32) rd rs1 imm s

/-- Four bytes (R463). -/
def execLw (rd rs1 : Reg) (imm : Word) (s : State) : Result :=
  loadReg 4 (fun m a => m.read32 a) rd rs1 imm s

/-- One byte, zero-extended (R464). -/
def execLbu (rd rs1 : Reg) (imm : Word) (s : State) : Result :=
  loadReg 1 (fun m a => (m.read8 a).setWidth 32) rd rs1 imm s

/-- Two bytes, zero-extended (R465). -/
def execLhu (rd rs1 : Reg) (imm : Word) (s : State) : Result :=
  loadReg 2 (fun m a => (m.read16 a).setWidth 32) rd rs1 imm s

end Sys2Proof.Machine
end

