-- ==== Sys2Proof/Machine/Stores.lean ====
section
/-! DEFINITION. The three stores (44_stores.md). No alignment is required (R209). -/

namespace Sys2Proof.Machine

/-- One byte (R481). -/
def execSb (rs1 rs2 : Reg) (imm : Word) (s : State) : Result := storeReg 1 rs1 rs2 imm s

/-- Two bytes (R482). -/
def execSh (rs1 rs2 : Reg) (imm : Word) (s : State) : Result := storeReg 2 rs1 rs2 imm s

/-- Four bytes (R483). -/
def execSw (rs1 rs2 : Reg) (imm : Word) (s : State) : Result := storeReg 4 rs1 rs2 imm s

end Sys2Proof.Machine
end

