-- ==== Sys2Proof/Machine/UpperImmediate.lean ====
section
/-! DEFINITION. LUI and AUIPC (40_upper_immediate.md). -/

namespace Sys2Proof.Machine

/-- `x[rd] <- imm` (R400). -/
def execLui (rd : Reg) (imm : Word) (s : State) : Result := writeRegNext rd imm s

/-- `x[rd] <- A + imm`, from the instruction's own address (R401). -/
def execAuipc (rd : Reg) (imm : Word) (s : State) : Result := writeRegNext rd (pcRel imm s) s

end Sys2Proof.Machine
end

