-- ==== Sys2Proof/Machine/Step.lean ====
section
/-! DEFINITION. One step (R131, R134): fetch, decode, execute. A failure ends the step and carries
no state: the state after it is the one before (R704). -/

namespace Sys2Proof.Machine

/-- `step()` (R134). -/
def step (s : State) : Host.Outcome State Fault Refusal :=
  match fetchDecode s with
  | .ok i => exec i s
  | .error f => raise f

/-- The state with an instruction stored where the next step fetches, the pc (R132). A pc that is
out of bounds names no bytes to store to, and the state is left as it is: every step there fails
with `OutOfBoundsAccess`. DESIGN CHOICE (notes/assumptions/4.md). -/
def State.withFetchWord (s : State) (nbits w : Nat) : State := placeWord s (tableWord nbits w)

end Sys2Proof.Machine
end

