-- ==== Sys2Proof/Machine/HostInterface.lean ====
section
/-! DEFINITION. What the host may do to the core between steps (R805, R806): create, load, step,
and writing a part of the state; and what each reports. Reading the state is reading its fields
through `State.x`, `State.pc`, `State.csrRead` and `Memory.byte`. -/

namespace Sys2Proof.Machine

/-- An operation of the host. Writing a part of the state is one part at a time, DESIGN CHOICE
(notes/assumptions/7.md). -/
inductive HostOp where
  /-- `create()` (R800): a new engine with the same `MEM_SIZE`. -/
  | create
  /-- `load(entry_pc, image)` (R801). -/
  | load (entryPc : Word) (image : List Byte)
  /-- `step()` (R134). -/
  | step
  /-- Writing a general register (R806); register 0 discards it like every write (R103). -/
  | writeReg (r : Reg) (v : Word)
  /-- Writing the pc (R806). -/
  | writePc (v : Word)
  /-- Writing a CSR (R806). -/
  | writeCsr (c : CsrIdx) (v : Word)
  /-- Writing a byte of memory (R806). -/
  | writeByte (a : Word) (b : Byte)
  deriving DecidableEq, Repr

/-- What an operation reports to the host. -/
inductive HostReply where
  /-- Done; nothing to report. -/
  | done
  /-- A successful step: the decoded instruction (R136). -/
  | executed (i : Instr)
  /-- A failed step (R700). -/
  | failed (f : Fault)
  /-- A step the model gives no meaning; no step of this model is refused. -/
  | stepRefused (r : Refusal)
  /-- `load` with an image longer than memory (R802). -/
  | loadRefused
  /-- A write to an address that names no byte (R201). -/
  | noSuchByte
  deriving DecidableEq, Repr

/-- `load(entry_pc, image)`: the image at offset 0 and the pc at the entry, or `none` where the
image is longer than memory (R801, R802). The entry pc is not checked (R803). -/
def loadImage (entryPc : Word) (image : List Byte) (s : State) : Option State :=
  if image.length ≤ s.mem.size then
    some { s with mem := s.mem.writeBytes 0 image, pc := entryPc }
  else none

/-- A step with what it reports: the updated state and the decoded instruction, or the unchanged
state and the failure (R134, R136, R704). -/
def hostStep (s : State) : State × HostReply :=
  match fetchDecode s with
  | .error f => (s, .failed f)
  | .ok i =>
    match exec i s with
    | .next t => (t, .executed i)
    | .fault f => (s, .failed f)
    | .refused r => (s, .stepRefused r)

/-- One operation of the host: the state it leaves and the reply (R805, R806). -/
def hostApply (op : HostOp) (s : State) : State × HostReply :=
  match op with
  | .create => (State.create s.mem.size, .done)
  | .load entryPc image =>
    match loadImage entryPc image s with
    | some t => (t, .done)
    | none => (s, .loadRefused)
  | .step => hostStep s
  | .writeReg r v => (s.setX r v, .done)
  | .writePc v => (s.setPc v, .done)
  | .writeCsr c v => (s.csrWrite c v, .done)
  | .writeByte a b =>
    if s.mem.InBounds a 1 then ({ s with mem := s.mem.setByte a.toNat b }, .done)
    else (s, .noSuchByte)

/-- The numeric code of a failure, for an interface that needs one (R700). -/
def faultCode : Fault → Nat
  | .invalidEncoding _ _ => 1
  | .unsupportedInstruction _ => 2
  | .outOfBoundsAccess _ _ => 3

/-- The status of a step: 0 for success, else the failure's code (92_eei_decisions.md D19). -/
def statusCode : Result → Option Nat
  | .next _ => some 0
  | .fault f => some (faultCode f)
  | .refused _ => none

end Sys2Proof.Machine
end

