-- ==== Sys2Proof/Safety.lean ====
section
/-! DEFINITION. The terms claims are made in: the invariant of the state, what a step leaves
unchanged, and what a safe run is. -/

namespace Sys2Proof.Machine

/-- `MEM_SIZE` is in the range of R14. -/
abbrev State.memSizeLegal (s : State) : Prop :=
  Config.minMemSize ≤ s.mem.size ∧ s.mem.size ≤ Config.maxMemSize

/-- The invariant of the state: a legal memory size (R14), memory and the CSR file in canonical
form (notes/assumptions/2.md), and a stored register 0 of 0 (R102). -/
abbrev State.Inv (s : State) : Prop :=
  s.memSizeLegal ∧ s.mem.wf = true ∧ s.csrWf = true ∧ s.regs[0] = 0#32

/-- The pc is a multiple of 2, as every jump and branch target is (R110). -/
abbrev State.pcEven (s : State) : Prop := s.pc.toNat % 2 = 0

/-! ## Frames -/

/-- Every general register reads as before. -/
def RegsSame (s t : State) : Prop := ∀ r : Reg, t.x r = s.x r

/-- Register `rd` reads `v`, unless it is register 0, and every other register reads as before
(R103). -/
def RegWritten (s t : State) (rd : Reg) (v : Word) : Prop :=
  ∀ r : Reg, t.x r = if r = rd ∧ rd ≠ 0#5 then v else s.x r

/-- Every CSR reads as before. -/
def CsrsSame (s t : State) : Prop := ∀ c : CsrIdx, t.csrRead c = s.csrRead c

/-- CSR `c` reads `v` and every other CSR reads as before. -/
def CsrWritten (s t : State) (c : CsrIdx) (v : Word) : Prop :=
  ∀ d : CsrIdx, t.csrRead d = if d = c then v else s.csrRead d

/-- Memory has the size it had and every byte reads as before. -/
def MemSame (s t : State) : Prop :=
  t.mem.size = s.mem.size ∧ ∀ a : Nat, t.mem.byte a = s.mem.byte a

/-- The `n` bytes at `a` read as the low `n` bytes of `v`, least significant first; every other
byte reads as before, and memory has the size it had (R207). -/
def MemWritten (s t : State) (a n : Nat) (v : Word) : Prop :=
  t.mem.size = s.mem.size ∧
  (∀ k : Nat, k < n → t.mem.byte (a + k) = v.extractLsb' (8 * k) 8) ∧
  (∀ b : Nat, (b < a ∨ a + n ≤ b) → t.mem.byte b = s.mem.byte b)

/-- The frame of a register instruction: one register written, nothing else but the pc. -/
def OnlyRegWritten (s t : State) (rd : Reg) (v : Word) : Prop :=
  RegWritten s t rd v ∧ CsrsSame s t ∧ MemSame s t

/-- `exec` answers a next state that writes only register `rd`, and the pc. -/
def WritesReg (i : Instr) (s : State) (rd : Reg) (v pc' : Word) : Prop :=
  ∃ t, exec i s = .next t ∧ OnlyRegWritten s t rd v ∧ t.pc = pc'

/-! ## Kinds of instructions -/

/-- The four variants without execution semantics (R580). -/
def isUnsupported : Instr → Bool
  | .fence _ _ _ _ _ | .fencei _ _ _ | .ecall | .ebreak => true
  | _ => false

/-- SB, SH and SW. -/
def isStore : Instr → Bool
  | .sb _ _ _ | .sh _ _ _ | .sw _ _ _ => true
  | _ => false

/-- The six CSR instructions. -/
def isCsr : Instr → Bool
  | .csrrw _ _ _ | .csrrs _ _ _ | .csrrc _ _ _ | .csrrwi _ _ _ | .csrrsi _ _ _
  | .csrrci _ _ _ => true
  | _ => false

/-- The data access of a load or store: its effective address and width (R460, R480, R211). -/
def dataAccess (i : Instr) (s : State) : Option (Word × Nat) :=
  match i with
  | .lb _ rs1 imm | .lbu _ rs1 imm | .sb rs1 _ imm => some (effAddr rs1 imm s, 1)
  | .lh _ rs1 imm | .lhu _ rs1 imm | .sh rs1 _ imm => some (effAddr rs1 imm s, 2)
  | .lw _ rs1 imm | .sw rs1 _ imm => some (effAddr rs1 imm s, 4)
  | _ => none

/-- The register an instruction may write (R104). -/
def destReg : Instr → Option Reg
  | .lui rd _ | .auipc rd _ | .jal rd _ | .jalr rd _ _ => some rd
  | .lb rd _ _ | .lh rd _ _ | .lw rd _ _ | .lbu rd _ _ | .lhu rd _ _ => some rd
  | .addi rd _ _ | .slti rd _ _ | .sltiu rd _ _ | .xori rd _ _ | .ori rd _ _ | .andi rd _ _
  | .slli rd _ _ | .srli rd _ _ | .srai rd _ _ => some rd
  | .add rd _ _ | .sub rd _ _ | .sll rd _ _ | .slt rd _ _ | .sltu rd _ _ | .xor_ rd _ _
  | .srl rd _ _ | .sra rd _ _ | .or_ rd _ _ | .and_ rd _ _ => some rd
  | .csrrw rd _ _ | .csrrs rd _ _ | .csrrc rd _ _ | .csrrwi rd _ _ | .csrrsi rd _ _
  | .csrrci rd _ _ => some rd
  | .beq _ _ _ | .bne _ _ _ | .blt _ _ _ | .bge _ _ _ | .bltu _ _ _ | .bgeu _ _ _
  | .sb _ _ _ | .sh _ _ _ | .sw _ _ _ | .fence _ _ _ _ _ | .fencei _ _ _ | .ecall
  | .ebreak => none

/-- The pc an instruction at `A = s.pc` leaves when it succeeds (R108). -/
def pcAfter (i : Instr) (s : State) : Word :=
  match i with
  | .jal _ imm => s.pc + imm
  | .jalr _ rs1 imm => (s.x rs1 + imm) &&& 0xFFFFFFFE#32
  | .beq rs1 rs2 imm => if s.x rs1 = s.x rs2 then s.pc + imm else s.pc + 4#32
  | .bne rs1 rs2 imm => if s.x rs1 ≠ s.x rs2 then s.pc + imm else s.pc + 4#32
  | .blt rs1 rs2 imm => if (s.x rs1).toInt < (s.x rs2).toInt then s.pc + imm else s.pc + 4#32
  | .bge rs1 rs2 imm => if (s.x rs1).toInt ≥ (s.x rs2).toInt then s.pc + imm else s.pc + 4#32
  | .bltu rs1 rs2 imm => if (s.x rs1).toNat < (s.x rs2).toNat then s.pc + imm else s.pc + 4#32
  | .bgeu rs1 rs2 imm => if (s.x rs1).toNat ≥ (s.x rs2).toNat then s.pc + imm else s.pc + 4#32
  | _ => s.pc + 4#32

/-- A word outside the opcode map, by its fields: the exclusions of R320, R322 to R329. -/
def OutsideOpcodeMap (w : Word) : Prop :=
  opcodeOf w ∉ [0b0110111#7, 0b0010111#7, 0b1101111#7, 0b1100111#7, 0b1100011#7, 0b0000011#7,
      0b0100011#7, 0b0010011#7, 0b0110011#7, 0b0001111#7, 0b1110011#7] ∨
  (opcodeOf w = 0b1100111#7 ∧ funct3Of w ≠ 0b000#3) ∨
  (opcodeOf w = 0b1100011#7 ∧ funct3Of w ∈ [0b010#3, 0b011#3]) ∨
  (opcodeOf w = 0b0000011#7 ∧ funct3Of w ∈ [0b011#3, 0b110#3, 0b111#3]) ∨
  (opcodeOf w = 0b0100011#7 ∧ funct3Of w ∉ [0b000#3, 0b001#3, 0b010#3]) ∨
  (opcodeOf w = 0b0010011#7 ∧ funct3Of w = 0b001#3 ∧ funct7Of w ≠ 0b0000000#7) ∨
  (opcodeOf w = 0b0010011#7 ∧ funct3Of w = 0b101#3 ∧
    funct7Of w ∉ [0b0000000#7, 0b0100000#7]) ∨
  (opcodeOf w = 0b0110011#7 ∧ funct7Of w ∉ [0b0000000#7, 0b0100000#7]) ∨
  (opcodeOf w = 0b0110011#7 ∧ funct7Of w = 0b0100000#7 ∧ funct3Of w ∉ [0b000#3, 0b101#3]) ∨
  (opcodeOf w = 0b0001111#7 ∧ funct3Of w ∉ [0b000#3, 0b001#3]) ∨
  (opcodeOf w = 0b1110011#7 ∧ funct3Of w = 0b100#3) ∨
  (opcodeOf w = 0b1110011#7 ∧ funct3Of w = 0b000#3 ∧ w ∉ [0x00000073#32, 0x00100073#32])

/-! ## The shape of a family's rule: which words it is, and what it does -/

/-- A branch (R440): its words, and that it moves the pc by the predicate and nothing else. -/
def BranchRule (mk : Reg → Reg → Word → Instr) (f3 : BitVec 3) (cond : Word → Word → Prop) : Prop :=
  (∀ w, opcodeOf w = 0b1100011#7 → funct3Of w = f3 →
    decode w = some (mk (rs1Of w) (rs2Of w) (immB w))) ∧
  ∀ rs1 rs2 imm s, ∃ t, exec (mk rs1 rs2 imm) s = .next t ∧
    RegsSame s t ∧ CsrsSame s t ∧ MemSame s t ∧
    (cond (s.x rs1) (s.x rs2) → t.pc = s.pc + imm) ∧
    (¬ cond (s.x rs1) (s.x rs2) → t.pc = s.pc + 4#32)

/-- An instruction fails: executing it gives failure `f`, and the host's step of it reports `f` and
leaves the whole state, the pc included, as it was (R704). -/
def FailsWith (i : Instr) (s : State) (f : Fault) : Prop :=
  exec i s = .fault f ∧
    (s.mem.InBounds s.pc 4 → decode (fetchWord s) = some i →
      hostApply .step s = (s, .failed f))

/-- A word that is no instruction: it does not decode, and a step that fetches it fails with
`InvalidEncoding` (R331). -/
def NoInstruction (w : Word) : Prop :=
  decode w = none ∧
    ∀ s : State, s.mem.InBounds s.pc 4 → fetchWord s = w →
      step s = .fault (.invalidEncoding w s.pc)

/-- A load (R460) of `n` bytes: its words, the value it writes when the access is in bounds, and
its failure when it is not, whatever `rd` is. -/
def LoadRule (mk : Reg → Reg → Word → Instr) (f3 : BitVec 3) (n : Nat)
    (value : (Nat → Byte) → Word) : Prop :=
  (∀ w, opcodeOf w = 0b0000011#7 → funct3Of w = f3 →
    decode w = some (mk (rdOf w) (rs1Of w) (immI w))) ∧
  ∀ rd rs1 imm s,
    ((effAddr rs1 imm s).toNat + n ≤ s.mem.size →
      WritesReg (mk rd rs1 imm) s rd
        (value fun k => s.mem.byte ((effAddr rs1 imm s).toNat + k)) (s.pc + 4#32)) ∧
    (¬ (effAddr rs1 imm s).toNat + n ≤ s.mem.size →
      FailsWith (mk rd rs1 imm) s (.outOfBoundsAccess (effAddr rs1 imm s) n))

/-- A store (R480) of `n` bytes: its words, the bytes it writes at its effective address when the
access is in bounds, and its failure when it is not. -/
def StoreRule (mk : Reg → Reg → Word → Instr) (f3 : BitVec 3) (n : Nat) : Prop :=
  (∀ w, opcodeOf w = 0b0100011#7 → funct3Of w = f3 →
    decode w = some (mk (rs1Of w) (rs2Of w) (immS w))) ∧
  ∀ rs1 rs2 imm s,
    ((effAddr rs1 imm s).toNat + n ≤ s.mem.size →
      ∃ t, exec (mk rs1 rs2 imm) s = .next t ∧ RegsSame s t ∧ CsrsSame s t ∧
        MemWritten s t (effAddr rs1 imm s).toNat n (s.x rs2) ∧ t.pc = s.pc + 4#32) ∧
    (¬ (effAddr rs1 imm s).toNat + n ≤ s.mem.size →
      FailsWith (mk rs1 rs2 imm) s (.outOfBoundsAccess (effAddr rs1 imm s) n))

/-- A register-immediate instruction (R500) with a 12-bit immediate. -/
def AluImmRule (mk : Reg → Reg → Word → Instr) (f3 : BitVec 3) (f : Word → Word → Word) : Prop :=
  (∀ w, opcodeOf w = 0b0010011#7 → funct3Of w = f3 →
    decode w = some (mk (rdOf w) (rs1Of w) (immI w))) ∧
  ∀ rd rs1 imm s, WritesReg (mk rd rs1 imm) s rd (f (s.x rs1) imm) (s.pc + 4#32)

/-- A shift-immediate instruction (R500). -/
def ShiftImmRule (mk : Reg → Reg → BitVec 5 → Instr) (f7 : BitVec 7) (f3 : BitVec 3)
    (f : Word → Nat → Word) : Prop :=
  (∀ w, opcodeOf w = 0b0010011#7 → funct3Of w = f3 → funct7Of w = f7 →
    decode w = some (mk (rdOf w) (rs1Of w) (shamtOf w))) ∧
  ∀ rd rs1 shamt s, WritesReg (mk rd rs1 shamt) s rd (f (s.x rs1) shamt.toNat) (s.pc + 4#32)

/-- A register-register instruction (R540). -/
def AluRegRule (mk : Reg → Reg → Reg → Instr) (f7 : BitVec 7) (f3 : BitVec 3)
    (f : Word → Word → Word) : Prop :=
  (∀ w, opcodeOf w = 0b0110011#7 → funct7Of w = f7 → funct3Of w = f3 →
    decode w = some (mk (rdOf w) (rs1Of w) (rs2Of w))) ∧
  ∀ rd rs1 rs2 s, WritesReg (mk rd rs1 rs2) s rd (f (s.x rs1) (s.x rs2)) (s.pc + 4#32)

/-- What a CSR instruction does (R600): `rd` gets the old value of CSR `c`, the CSR gets `f` of
the old value and the source, the pc advances, and nothing else changes. -/
def UpdatesCsr (i : Instr) (s : State) (rd : Reg) (c : CsrIdx) (new : Word) : Prop :=
  ∃ t, exec i s = .next t ∧ RegWritten s t rd (s.csrRead c) ∧ CsrWritten s t c new ∧
    MemSame s t ∧ t.pc = s.pc + 4#32

/-- A CSR instruction with a register source. -/
def CsrRule (mk : Reg → Reg → CsrIdx → Instr) (f3 : BitVec 3) (f : Word → Word → Word) : Prop :=
  (∀ w, opcodeOf w = 0b1110011#7 → funct3Of w = f3 →
    decode w = some (mk (rdOf w) (rs1Of w) (csrnoOf w))) ∧
  ∀ rd rs1 c s, UpdatesCsr (mk rd rs1 c) s rd c (f (s.csrRead c) (s.x rs1))

/-- A CSR instruction with a 5-bit immediate source. -/
def CsrImmRule (mk : Reg → BitVec 5 → CsrIdx → Instr) (f3 : BitVec 3)
    (f : Word → Word → Word) : Prop :=
  (∀ w, opcodeOf w = 0b1110011#7 → funct3Of w = f3 →
    decode w = some (mk (rdOf w) (uimmOf w) (csrnoOf w))) ∧
  ∀ rd uimm c s, UpdatesCsr (mk rd uimm c) s rd c (f (s.csrRead c) (BitVec.ofNat 32 uimm.toNat))

/-- An instruction without execution semantics (R580): it fails in every state. -/
def UnsupportedRule (i : Instr) : Prop := ∀ s, FailsWith i s (.unsupportedInstruction i)

end Sys2Proof.Machine
end

