-- ==== Sys2Proof/Certificates/Slice0/Obligations.lean ====
section
/-! DEFINITION. The statements for the provers, from the spec's numbered rules. -/

open Sys2Proof Sys2Proof.Machine

/-! ## Encoding and decoding -/

/-- R339: every field of a well-formed instruction comes back through the decoder, and the
accessors expose the fields of its format. -/
def Obligations.DecodeInvertsEncode : Prop :=
  ∀ i : Instr, i.wellFormed = true →
    decode (encode i) = some i ∧ accessors i = wordAccessors i (encode i)

/-- The other direction: a word that decodes is the encoding of what it decodes to, which is well
formed. -/
def Obligations.EncodeInvertsDecode : Prop :=
  ∀ (w : Word) (i : Instr), decode w = some i → encode i = w ∧ i.wellFormed = true

/-- The decoder and spec/opcode_table.json agree: a word decodes to an instruction exactly when it
matches that instruction's row, and no other row. -/
def Obligations.DecodeAgreesWithOpcodeTable : Prop :=
  (∀ (w : Word) (i : Instr), decode w = some i →
    (rowOf i).matches w ∧ ∀ j : Instr, (rowOf j).matches w → rowOf j = rowOf i) ∧
  (∀ w : Word, decode w = none → ∀ i : Instr, ¬ (rowOf i).matches w)

/-- R331 to R334: a word outside the opcode map makes the step fail with `InvalidEncoding`. -/
def Obligations.WordsOutsideTheMapAreInvalid : Prop :=
  ∀ (s : State) (w : Word), s.mem.InBounds s.pc 4 → fetchWord s = w →
    (w = 0x00000000#32 ∨ w = 0xFFFFFFFF#32 ∨ w.extractLsb' 0 2 ≠ 0b11#2 ∨ OutsideOpcodeMap w) →
    step s = .fault (.invalidEncoding w s.pc)

/-- R310 to R314: the value of each immediate, as a number, from the fields of the word. -/
def Obligations.ImmediatesAreSignedFieldValues : Prop :=
  ∀ w : Word,
    ((immI w).toInt = (w.extractLsb' 20 12).toInt ∧
      -2048 ≤ (immI w).toInt ∧ (immI w).toInt ≤ 2047) ∧
    ((immS w).toInt = (w.extractLsb' 25 7).toInt * 32 + (w.extractLsb' 7 5).toNat ∧
      -2048 ≤ (immS w).toInt ∧ (immS w).toInt ≤ 2047) ∧
    ((immB w).toInt = (w.extractLsb' 31 1).toInt * 4096 + (w.extractLsb' 7 1).toNat * 2048 +
        (w.extractLsb' 25 6).toNat * 32 + (w.extractLsb' 8 4).toNat * 2 ∧
      -4096 ≤ (immB w).toInt ∧ (immB w).toInt ≤ 4094 ∧ (immB w).toNat % 2 = 0) ∧
    ((immU w).toNat = (w.extractLsb' 12 20).toNat * 4096) ∧
    ((immJ w).toInt = (w.extractLsb' 31 1).toInt * 1048576 + (w.extractLsb' 12 8).toNat * 4096 +
        (w.extractLsb' 20 1).toNat * 2048 + (w.extractLsb' 21 10).toNat * 2 ∧
      -1048576 ≤ (immJ w).toInt ∧ (immJ w).toInt ≤ 1048574 ∧ (immJ w).toNat % 2 = 0)

/-- Words of every family, as 95_test_vectors.md writes them out. A sanity statement. -/
def Obligations.SampleWordsDecode : Prop :=
  decode 0x123452B7#32 = some (.lui 5 0x12345000#32) ∧
  decode 0x008000EF#32 = some (.jal 1 8#32) ∧
  decode 0xFE209EE3#32 = some (.bne 1 2 0xFFFFFFFC#32) ∧
  decode 0xFFC0A183#32 = some (.lw 3 1 0xFFFFFFFC#32) ∧
  decode 0xFE20AE23#32 = some (.sw 1 2 0xFFFFFFFC#32) ∧
  decode 0x4040D193#32 = some (.srai 3 1 4) ∧
  decode 0x402081B3#32 = some (.sub 3 1 2) ∧
  decode 0x00100073#32 = some .ebreak ∧
  decode 0x340FD1F3#32 = some (.csrrwi 3 31 0x340) ∧
  decode 0x00000000#32 = none

/-! ## The step -/

/-- R132, R133: the three things a step can do with the word at the pc. -/
def Obligations.StepRunsTheDecodedInstruction : Prop :=
  ∀ s : State,
    (¬ s.pc.toNat + 4 ≤ s.mem.size → step s = .fault (.outOfBoundsAccess s.pc 4)) ∧
    (s.pc.toNat + 4 ≤ s.mem.size → decode (fetchWord s) = none →
      step s = .fault (.invalidEncoding (fetchWord s) s.pc)) ∧
    (s.pc.toNat + 4 ≤ s.mem.size → ∀ i : Instr, decode (fetchWord s) = some i →
      step s = exec i s)

/-- R205: the byte at the pc holds bits 7:0 of the raw word, the byte at `A + 3` bits 31:24. -/
def Obligations.FetchIsLittleEndian : Prop :=
  ∀ (s : State) (k : Nat), k < 4 →
    (fetchWord s).extractLsb' (8 * k) 8 = s.mem.byte (s.pc.toNat + k)

/-- R701 to R703: when each failure arises, and what it records. -/
def Obligations.FailuresAriseExactlyWhenStated : Prop :=
  ∀ s : State,
    (∀ w a : Word, step s = .fault (.invalidEncoding w a) ↔
      s.mem.InBounds s.pc 4 ∧ decode w = none ∧ w = fetchWord s ∧ a = s.pc) ∧
    (∀ i : Instr, step s = .fault (.unsupportedInstruction i) ↔
      s.mem.InBounds s.pc 4 ∧ decode (fetchWord s) = some i ∧ isUnsupported i = true) ∧
    (∀ (a : Word) (n : Nat), step s = .fault (.outOfBoundsAccess a n) ↔
      (¬ s.mem.InBounds s.pc 4 ∧ a = s.pc ∧ n = 4) ∨
      (s.mem.InBounds s.pc 4 ∧ ∃ i : Instr, decode (fetchWord s) = some i ∧
        dataAccess i s = some (a, n) ∧ ¬ s.mem.InBounds a n))

/-- R700: a step succeeds or fails with one of the three failures, whose codes are 1, 2 and 3. -/
def Obligations.StepSucceedsOrFailsWithOneOfThree : Prop :=
  (∀ s : State, (∃ t, step s = .next t) ∨
    (∃ w a, step s = .fault (.invalidEncoding w a)) ∨
    (∃ i, step s = .fault (.unsupportedInstruction i)) ∨
    (∃ a n, step s = .fault (.outOfBoundsAccess a n))) ∧
  (∀ w a, faultCode (.invalidEncoding w a) = 1) ∧
  (∀ i, faultCode (.unsupportedInstruction i) = 2) ∧
  (∀ a n, faultCode (.outOfBoundsAccess a n) = 3)

/-- Every instruction but the four without semantics completes when its fetch and its data access
are in bounds. -/
def Obligations.StepCompletesWhenAccessesAreInBounds : Prop :=
  ∀ (s : State) (i : Instr), s.mem.InBounds s.pc 4 → decode (fetchWord s) = some i →
    isUnsupported i = false →
    (∀ (a : Word) (n : Nat), dataAccess i s = some (a, n) → s.mem.InBounds a n) →
    ∃ t, step s = .next t

/-- An instruction word placed where the next step fetches is what that step runs. -/
def Obligations.PlacedWordIsFetched : Prop :=
  ∀ (s : State) (nbits w : Nat) (i : Instr), s.mem.InBounds s.pc 4 →
    decodeTableWord nbits w = some i →
    step (s.withFetchWord nbits w) = exec i (s.withFetchWord nbits w)

/-! ## Reset and invariants -/

/-- R800: `create()` zeroes every register, the pc, every CSR and every byte. -/
def Obligations.CreateZeroesTheState : Prop :=
  ∀ n : Nat,
    (∀ r, (State.create n).x r = 0#32) ∧ (State.create n).pc = 0#32 ∧
    (∀ c, (State.create n).csrRead c = 0#32) ∧ (∀ a, (State.create n).mem.byte a = 0#8) ∧
    (State.create n).mem.size = n

/-- The invariant holds at reset. The memory size there is the model's choice
(notes/assumptions/1.md), and the canonical forms are the model's own (notes/assumptions/2.md). -/
def Obligations.ResetSatisfiesInvariant : Prop := State.reset.Inv

/-- Every successful step keeps the invariant: a legal memory size, memory and the CSR file in
canonical form, register 0 stored as 0. -/
def Obligations.StepKeepsInvariant : Prop :=
  ∀ s t : State, s.Inv → step s = .next t → t.Inv

/-- Every host operation keeps the invariant, whether it succeeds, fails or is refused. -/
def Obligations.HostOperationsKeepInvariant : Prop :=
  ∀ (op : HostOp) (s : State), s.Inv → (hostApply op s).1.Inv

/-- A run of any length keeps the invariant and never changes the memory size. -/
def Obligations.RunsKeepInvariantAndMemorySize : Prop :=
  ∀ (k : Nat) (s t : State), s.Inv → core.run k s = .next t →
    t.Inv ∧ t.mem.size = s.mem.size

/-- R110: an even pc stays even, since every target is a multiple of 2. -/
def Obligations.StepKeepsPcEven : Prop :=
  ∀ s t : State, s.pcEven → step s = .next t → t.pcEven

/-! ## Whole-machine rules -/

/-- R103: writes to register 0 are discarded, for every instruction. -/
def Obligations.WritesToRegisterZeroAreDiscarded : Prop :=
  ∀ (i : Instr) (s t : State), exec i s = .next t →
    (destReg i = some 0#5 → t.regs = s.regs) ∧ t.regs[0] = s.regs[0] ∧ t.x 0#5 = 0#32

/-- R104: an instruction writes at most its destination register. -/
def Obligations.OnlyTheDestinationRegisterChanges : Prop :=
  ∀ (i : Instr) (s t : State), exec i s = .next t →
    ∀ r : Reg, destReg i ≠ some r → t.x r = s.x r

/-- Only a store changes memory. -/
def Obligations.OnlyStoresChangeMemory : Prop :=
  ∀ (i : Instr) (s t : State), exec i s = .next t → isStore i = false → MemSame s t

/-- R112: no instruction but the six CSR instructions reads or writes the CSR file. -/
def Obligations.OnlyCsrInstructionsTouchTheCsrFile : Prop :=
  ∀ (i : Instr) (s : State) (csr' : List (Nat × Word)), isCsr i = false →
    (∀ t, exec i s = .next t →
      t.csr = s.csr ∧ exec i { s with csr := csr' } = .next { t with csr := csr' }) ∧
    (∀ f, exec i s = .fault f → exec i { s with csr := csr' } = .fault f)

/-- R108: where each instruction leaves the pc. -/
def Obligations.PcAfterEachInstruction : Prop :=
  ∀ (i : Instr) (s t : State), exec i s = .next t → t.pc = pcAfter i s

/-! ## Memory -/

/-- R206, R207: `MemRead` is little-endian byte by byte; `MemWrite` sets the bytes of its range to
those of the value, and no other byte. -/
def Obligations.MemoryIsLittleEndianByteByByte : Prop :=
  (∀ (m : Memory) (a : Nat), m.read8 a = m.byte a ∧
    (∀ k < 2, (m.read16 a).extractLsb' (8 * k) 8 = m.byte (a + k)) ∧
    (∀ k < 4, (m.read32 a).extractLsb' (8 * k) 8 = m.byte (a + k))) ∧
  (∀ (m : Memory) (a n : Nat) (v : Word),
    (∀ k < n, (m.write a n v).byte (a + k) = v.extractLsb' (8 * k) 8) ∧
    (∀ b, (b < a ∨ a + n ≤ b) → (m.write a n v).byte b = m.byte b))

/-- A load of the same address, at any alignment, reads back what a store of its width wrote. -/
def Obligations.LoadReadsBackStore : Prop :=
  ∀ (s t : State) (base src rd : Reg) (imm : Word), rd ≠ 0#5 →
    (exec (.sw base src imm) s = .next t →
      ∃ u, exec (.lw rd base imm) t = .next u ∧ u.x rd = s.x src) ∧
    (exec (.sh base src imm) s = .next t →
      (∃ u, exec (.lh rd base imm) t = .next u ∧
        u.x rd = ((s.x src).extractLsb' 0 16).signExtend 32) ∧
      (∃ u, exec (.lhu rd base imm) t = .next u ∧ (u.x rd).toNat = (s.x src).toNat % 65536)) ∧
    (exec (.sb base src imm) s = .next t →
      (∃ u, exec (.lb rd base imm) t = .next u ∧
        u.x rd = ((s.x src).extractLsb' 0 8).signExtend 32) ∧
      (∃ u, exec (.lbu rd base imm) t = .next u ∧ (u.x rd).toNat = (s.x src).toNat % 256))

/-- R208: a byte load inside a stored word reads the byte of the value at that offset. -/
def Obligations.ByteLoadsSeeTheBytesOfAStoredWord : Prop :=
  ∀ (s t : State) (base src addr rd : Reg) (imm imm' : Word) (k : Nat), rd ≠ 0#5 → k < 4 →
    exec (.sw base src imm) s = .next t →
    (effAddr addr imm' s).toNat = (effAddr base imm s).toNat + k →
    ∃ u, exec (.lbu rd addr imm') t = .next u ∧
      (u.x rd).toNat = (s.x src).toNat / 2 ^ (8 * k) % 256

/-- R216: a word stored over the next instruction is what the next step fetches. -/
def Obligations.StoreIsSeenByTheNextFetch : Prop :=
  ∀ (s t : State) (base src : Reg) (imm : Word), exec (.sw base src imm) s = .next t →
    effAddr base imm s = s.pc + 4#32 →
    t.mem.InBounds t.pc 4 ∧ fetchWord t = s.x src ∧
      ∀ i, decode (s.x src) = some i → step t = exec i t

/-! ## The host's operations -/

/-- R801: `load` copies the image to offset 0, sets the pc and changes nothing else. -/
def Obligations.LoadCopiesTheImage : Prop :=
  ∀ (s : State) (entryPc : Word) (image : List Byte), image.length ≤ s.mem.size →
    ∃ t, hostApply (.load entryPc image) s = (t, .done) ∧ t.pc = entryPc ∧
      (∀ (k : Nat) (h : k < image.length), t.mem.byte k = image[k]) ∧
      (∀ a, image.length ≤ a → t.mem.byte a = s.mem.byte a) ∧
      t.mem.size = s.mem.size ∧ RegsSame s t ∧ CsrsSame s t

/-- R802: an image longer than memory is refused, and nothing changes. -/
def Obligations.OversizedLoadIsRefused : Prop :=
  ∀ (s : State) (entryPc : Word) (image : List Byte), s.mem.size < image.length →
    hostApply (.load entryPc image) s = (s, .loadRefused)

/-- R704, R136: a failed step leaves the whole state as it was, and fails again the same way; a
successful step reports the decoded instruction. -/
def Obligations.StepReportsAndFailuresAreAtomic : Prop :=
  ∀ s : State,
    (∀ f, step s = .fault f → hostApply .step s = (s, .failed f) ∧
      hostApply .step (hostApply .step s).1 = (s, .failed f)) ∧
    (∀ t, step s = .next t → ∃ i, decode (fetchWord s) = some i ∧
      hostApply .step s = (t, .executed i))

/-! ## Instructions -/

/-- R400. -/
def Obligations.LuiLoadsTheUpperImmediate : Prop :=
  (∀ w, opcodeOf w = 0b0110111#7 → decode w = some (.lui (rdOf w) (immU w))) ∧
  (∀ w, (immU w).toNat = (w.extractLsb' 12 20).toNat * 4096) ∧
  ∀ rd imm s, WritesReg (.lui rd imm) s rd imm (s.pc + 4#32)

/-- R401. -/
def Obligations.AuipcAddsToItsOwnAddress : Prop :=
  (∀ w, opcodeOf w = 0b0010111#7 → decode w = some (.auipc (rdOf w) (immU w))) ∧
  ∀ rd imm s, WritesReg (.auipc rd imm) s rd (BitVec.ofNat 32 (s.pc.toNat + imm.toNat))
    (s.pc + 4#32)

/-- R420. -/
def Obligations.JalLinksAndJumpsRelative : Prop :=
  (∀ w, opcodeOf w = 0b1101111#7 → decode w = some (.jal (rdOf w) (immJ w))) ∧
  ∀ rd imm s, WritesReg (.jal rd imm) s rd (s.pc + 4#32)
    (BitVec.ofInt 32 (s.pc.toNat + imm.toInt))

/-- R421: the target is the old `x[rs1]` plus the immediate, rounded down to an even address. -/
def Obligations.JalrLinksAndJumpsToTheEvenSum : Prop :=
  (∀ w, opcodeOf w = 0b1100111#7 → funct3Of w = 0b000#3 →
    decode w = some (.jalr (rdOf w) (rs1Of w) (immI w))) ∧
  ∀ rd rs1 imm s, WritesReg (.jalr rd rs1 imm) s rd (s.pc + 4#32)
    (BitVec.ofNat 32 ((s.x rs1 + imm).toNat / 2 * 2))

/-- R422: no jump or branch fails for its target; a target outside memory fails at the next
fetch, with the jump completed. -/
def Obligations.TargetsAreCheckedOnlyAtTheNextFetch : Prop :=
  ∀ (i : Instr) (s : State), formatOf i = .B ∨ formatOf i = .J ∨ (∃ rd rs1 imm, i = .jalr rd rs1 imm) →
    ∃ t, exec i s = .next t ∧
      (¬ t.pc.toNat + 4 ≤ t.mem.size → step t = .fault (.outOfBoundsAccess t.pc 4))

/-- R440 to R446. -/
def Obligations.BranchesFollowTheirPredicates : Prop :=
  BranchRule .beq 0b000#3 (fun a b => a = b) ∧
  BranchRule .bne 0b001#3 (fun a b => a ≠ b) ∧
  BranchRule .blt 0b100#3 (fun a b => a.toInt < b.toInt) ∧
  BranchRule .bge 0b101#3 (fun a b => a.toInt ≥ b.toInt) ∧
  BranchRule .bltu 0b110#3 (fun a b => a.toNat < b.toNat) ∧
  BranchRule .bgeu 0b111#3 (fun a b => a.toNat ≥ b.toNat)

/-- R460 to R465. -/
def Obligations.LoadsReadAndExtend : Prop :=
  LoadRule .lb 0b000#3 1 (fun mem => BitVec.ofInt 32 (mem 0).toInt) ∧
  LoadRule .lh 0b001#3 2 (fun mem => BitVec.ofInt 32 ((mem 1).toInt * 256 + (mem 0).toNat)) ∧
  LoadRule .lw 0b010#3 4 (fun mem => BitVec.ofNat 32 ((mem 3).toNat * 16777216 +
    (mem 2).toNat * 65536 + (mem 1).toNat * 256 + (mem 0).toNat)) ∧
  LoadRule .lbu 0b100#3 1 (fun mem => BitVec.ofNat 32 (mem 0).toNat) ∧
  LoadRule .lhu 0b101#3 2 (fun mem => BitVec.ofNat 32 ((mem 1).toNat * 256 + (mem 0).toNat))

/-- R480 to R483. -/
def Obligations.StoresWriteTheirBytesOnly : Prop :=
  StoreRule .sb 0b000#3 1 ∧ StoreRule .sh 0b001#3 2 ∧ StoreRule .sw 0b010#3 4

/-- R501, R504 to R506. -/
def Obligations.ImmediateArithmeticAndLogic : Prop :=
  AluImmRule .addi 0b000#3 (fun a imm => BitVec.ofInt 32 (a.toInt + imm.toInt)) ∧
  AluImmRule .xori 0b100#3 (fun a imm => a ^^^ imm) ∧
  AluImmRule .ori 0b110#3 (fun a imm => a ||| imm) ∧
  AluImmRule .andi 0b111#3 (fun a imm => a &&& imm)

/-- R502, R503. -/
def Obligations.ImmediateComparisons : Prop :=
  AluImmRule .slti 0b010#3 (fun a imm => if a.toInt < imm.toInt then 1#32 else 0#32) ∧
  AluImmRule .sltiu 0b011#3 (fun a imm => if a.toNat < imm.toNat then 1#32 else 0#32)

/-- R507 to R509. -/
def Obligations.ImmediateShifts : Prop :=
  ShiftImmRule .slli 0b0000000#7 0b001#3 (fun a k => BitVec.ofNat 32 (a.toNat * 2 ^ k)) ∧
  ShiftImmRule .srli 0b0000000#7 0b101#3 (fun a k => BitVec.ofNat 32 (a.toNat / 2 ^ k)) ∧
  ShiftImmRule .srai 0b0100000#7 0b101#3 (fun a k => BitVec.ofInt 32 (a.toInt / 2 ^ k)) ∧
  (∀ w, opcodeOf w = 0b0010011#7 → funct3Of w = 0b001#3 → funct7Of w ≠ 0b0000000#7 →
    NoInstruction w) ∧
  (∀ w, opcodeOf w = 0b0010011#7 → funct3Of w = 0b101#3 → funct7Of w ≠ 0b0000000#7 →
    funct7Of w ≠ 0b0100000#7 → NoInstruction w)

/-- R541, R542, R546, R549, R550. -/
def Obligations.RegisterArithmeticAndLogic : Prop :=
  AluRegRule .add 0b0000000#7 0b000#3 (fun a b => BitVec.ofNat 32 (a.toNat + b.toNat)) ∧
  AluRegRule .sub 0b0100000#7 0b000#3 (fun a b => BitVec.ofInt 32 (a.toInt - b.toInt)) ∧
  AluRegRule .xor_ 0b0000000#7 0b100#3 (fun a b => a ^^^ b) ∧
  AluRegRule .or_ 0b0000000#7 0b110#3 (fun a b => a ||| b) ∧
  AluRegRule .and_ 0b0000000#7 0b111#3 (fun a b => a &&& b)

/-- R544, R545. -/
def Obligations.RegisterComparisons : Prop :=
  AluRegRule .slt 0b0000000#7 0b010#3 (fun a b => if a.toInt < b.toInt then 1#32 else 0#32) ∧
  AluRegRule .sltu 0b0000000#7 0b011#3 (fun a b => if a.toNat < b.toNat then 1#32 else 0#32)

/-- R543, R547, R548: the count is the low 5 bits of `x[rs2]`. -/
def Obligations.RegisterShifts : Prop :=
  AluRegRule .sll 0b0000000#7 0b001#3
    (fun a b => BitVec.ofNat 32 (a.toNat * 2 ^ (b.toNat % 32))) ∧
  AluRegRule .srl 0b0000000#7 0b101#3
    (fun a b => BitVec.ofNat 32 (a.toNat / 2 ^ (b.toNat % 32))) ∧
  AluRegRule .sra 0b0100000#7 0b101#3
    (fun a b => BitVec.ofInt 32 (a.toInt / 2 ^ (b.toNat % 32)))

/-- R580 to R584. -/
def Obligations.FenceAndEnvironmentInstructionsFail : Prop :=
  (∀ w, opcodeOf w = 0b0001111#7 → funct3Of w = 0b000#3 →
    decode w = some (.fence (fmOf w) (predOf w) (succOf w) (rs1Of w) (rdOf w))) ∧
  (∀ w, opcodeOf w = 0b0001111#7 → funct3Of w = 0b001#3 →
    decode w = some (.fencei (rdOf w) (rs1Of w) (immI w))) ∧
  (∀ w, decode w = some .ecall ↔ w = 0x00000073#32) ∧
  (∀ w, decode w = some .ebreak ↔ w = 0x00100073#32) ∧
  (∀ fm pred succ rs1 rd, UnsupportedRule (.fence fm pred succ rs1 rd)) ∧
  (∀ rd rs1 imm, UnsupportedRule (.fencei rd rs1 imm)) ∧
  UnsupportedRule .ecall ∧ UnsupportedRule .ebreak

/-- R600 to R606. -/
def Obligations.CsrInstructionsReadThenUpdate : Prop :=
  CsrRule .csrrw 0b001#3 (fun _ src => src) ∧
  CsrRule .csrrs 0b010#3 (fun old src => old ||| src) ∧
  CsrRule .csrrc 0b011#3 (fun old src => old &&& ~~~src) ∧
  CsrImmRule .csrrwi 0b101#3 (fun _ src => src) ∧
  CsrImmRule .csrrsi 0b110#3 (fun old src => old ||| src) ∧
  CsrImmRule .csrrci 0b111#3 (fun old src => old &&& ~~~src)

/-- R607: a value written by CSRRW comes back through CSRRS with source register 0, and register 0
reads 0 throughout. -/
def Obligations.CsrWriteThenReadReturnsTheValue : Prop :=
  ∀ (s t : State) (rd src dst : Reg) (c : CsrIdx), src ≠ 0#5 → dst ≠ 0#5 →
    exec (.csrrw rd src c) s = .next t →
    ∃ u, exec (.csrrs dst 0#5 c) t = .next u ∧ u.x dst = s.x src ∧ u.csrRead c = s.x src ∧
      t.x 0#5 = 0#32 ∧ u.x 0#5 = 0#32
end

