-- ==== Sys2Proof/Laws/Encoding.lean ====
section
/-! SUPPORT. What each field extraction gives on an encoded word, format by format, and that an
immediate its format can hold is the extension of its low bits. -/

set_option Elab.async false -- one proof at a time: each waiting proof would hold a thread's stack

namespace Sys2Proof

/-! ## Extraction from a concatenation -/

theorem extract_append_lo {a b : Nat} (x : BitVec a) (y : BitVec b) :
    (x ++ y).extractLsb' 0 b = y := by
  apply BitVec.eq_of_getLsbD_eq
  intro i hi
  simp [BitVec.getLsbD_append, hi]

theorem extract_append_hi {a b : Nat} (x : BitVec a) (y : BitVec b) (lo n : Nat) :
    (x ++ y).extractLsb' (b + lo) n = x.extractLsb' lo n := by
  apply BitVec.eq_of_getLsbD_eq
  intro i hi
  have h1 : ¬ (b + lo + i < b) := by omega
  have h2 : b + lo + i - b = lo + i := by omega
  simp [BitVec.getLsbD_append, h1, h2]

/-- Two neighbouring fields, put together, are one field. -/
theorem extract_glue {w : Nat} (x : BitVec w) (lo m n : Nat) :
    x.extractLsb' (lo + n) m ++ x.extractLsb' lo n = x.extractLsb' lo (m + n) := by
  apply BitVec.eq_of_getLsbD_eq
  intro i hi
  rw [BitVec.getLsbD_append]
  by_cases h : i < n
  · simp [h, hi]
  · simp [h, hi, show i - n < m by omega, show lo + n + (i - n) = lo + i by omega]

theorem extract_self {w : Nat} (x : BitVec w) : x.extractLsb' 0 w = x := by
  apply BitVec.eq_of_getLsbD_eq
  intro i hi
  simp [hi]

section Fields
variable (f7 : BitVec 7) (rs2 rs1 rd : Reg) (f3 : BitVec 3) (op : BitVec 7) (imm12 : BitVec 12)
  (imm : Word)

/-! ## R format -/

@[simp] theorem opcodeOf_encR : opcodeOf (encR f7 rs2 rs1 f3 rd op) = op :=
  extract_append_lo (f7 ++ rs2 ++ rs1 ++ f3 ++ rd) op

@[simp] theorem rdOf_encR : rdOf (encR f7 rs2 rs1 f3 rd op) = rd :=
  (extract_append_hi (f7 ++ rs2 ++ rs1 ++ f3 ++ rd) op 0 5).trans <|
  extract_append_lo (f7 ++ rs2 ++ rs1 ++ f3) rd

@[simp] theorem funct3Of_encR : funct3Of (encR f7 rs2 rs1 f3 rd op) = f3 :=
  (extract_append_hi (f7 ++ rs2 ++ rs1 ++ f3 ++ rd) op 5 3).trans <|
  (extract_append_hi (f7 ++ rs2 ++ rs1 ++ f3) rd 0 3).trans <|
  extract_append_lo (f7 ++ rs2 ++ rs1) f3

@[simp] theorem rs1Of_encR : rs1Of (encR f7 rs2 rs1 f3 rd op) = rs1 :=
  (extract_append_hi (f7 ++ rs2 ++ rs1 ++ f3 ++ rd) op 8 5).trans <|
  (extract_append_hi (f7 ++ rs2 ++ rs1 ++ f3) rd 3 5).trans <|
  (extract_append_hi (f7 ++ rs2 ++ rs1) f3 0 5).trans <|
  extract_append_lo (f7 ++ rs2) rs1

@[simp] theorem rs2Of_encR : rs2Of (encR f7 rs2 rs1 f3 rd op) = rs2 :=
  (extract_append_hi (f7 ++ rs2 ++ rs1 ++ f3 ++ rd) op 13 5).trans <|
  (extract_append_hi (f7 ++ rs2 ++ rs1 ++ f3) rd 8 5).trans <|
  (extract_append_hi (f7 ++ rs2 ++ rs1) f3 5 5).trans <|
  (extract_append_hi (f7 ++ rs2) rs1 0 5).trans <|
  extract_append_lo f7 rs2

@[simp] theorem funct7Of_encR : funct7Of (encR f7 rs2 rs1 f3 rd op) = f7 :=
  (extract_append_hi (f7 ++ rs2 ++ rs1 ++ f3 ++ rd) op 18 7).trans <|
  (extract_append_hi (f7 ++ rs2 ++ rs1 ++ f3) rd 13 7).trans <|
  (extract_append_hi (f7 ++ rs2 ++ rs1) f3 10 7).trans <|
  (extract_append_hi (f7 ++ rs2) rs1 5 7).trans <|
  (extract_append_hi f7 rs2 0 7).trans <|
  extract_self f7

/-! ## I format -/

@[simp] theorem opcodeOf_encI : opcodeOf (encI imm12 rs1 f3 rd op) = op :=
  extract_append_lo (imm12 ++ rs1 ++ f3 ++ rd) op

@[simp] theorem rdOf_encI : rdOf (encI imm12 rs1 f3 rd op) = rd :=
  (extract_append_hi (imm12 ++ rs1 ++ f3 ++ rd) op 0 5).trans <|
  extract_append_lo (imm12 ++ rs1 ++ f3) rd

@[simp] theorem funct3Of_encI : funct3Of (encI imm12 rs1 f3 rd op) = f3 :=
  (extract_append_hi (imm12 ++ rs1 ++ f3 ++ rd) op 5 3).trans <|
  (extract_append_hi (imm12 ++ rs1 ++ f3) rd 0 3).trans <|
  extract_append_lo (imm12 ++ rs1) f3

@[simp] theorem rs1Of_encI : rs1Of (encI imm12 rs1 f3 rd op) = rs1 :=
  (extract_append_hi (imm12 ++ rs1 ++ f3 ++ rd) op 8 5).trans <|
  (extract_append_hi (imm12 ++ rs1 ++ f3) rd 3 5).trans <|
  (extract_append_hi (imm12 ++ rs1) f3 0 5).trans <|
  extract_append_lo imm12 rs1

@[simp] theorem csrnoOf_encI : csrnoOf (encI imm12 rs1 f3 rd op) = imm12 :=
  (extract_append_hi (imm12 ++ rs1 ++ f3 ++ rd) op 13 12).trans <|
  (extract_append_hi (imm12 ++ rs1 ++ f3) rd 8 12).trans <|
  (extract_append_hi (imm12 ++ rs1) f3 5 12).trans <|
  (extract_append_hi imm12 rs1 0 12).trans <|
  extract_self imm12

/-! ## S format -/

@[simp] theorem opcodeOf_encS : opcodeOf (encS imm rs2 rs1 f3 op) = op :=
  extract_append_lo (imm.extractLsb' 5 7 ++ rs2 ++ rs1 ++ f3 ++ imm.extractLsb' 0 5) op

theorem extract_7_5_encS :
    (encS imm rs2 rs1 f3 op).extractLsb' 7 5 = imm.extractLsb' 0 5 :=
  (extract_append_hi (imm.extractLsb' 5 7 ++ rs2 ++ rs1 ++ f3 ++ imm.extractLsb' 0 5) op 0 5).trans <|
  extract_append_lo (imm.extractLsb' 5 7 ++ rs2 ++ rs1 ++ f3) (imm.extractLsb' 0 5)

@[simp] theorem funct3Of_encS : funct3Of (encS imm rs2 rs1 f3 op) = f3 :=
  (extract_append_hi (imm.extractLsb' 5 7 ++ rs2 ++ rs1 ++ f3 ++ imm.extractLsb' 0 5) op 5 3).trans <|
  (extract_append_hi (imm.extractLsb' 5 7 ++ rs2 ++ rs1 ++ f3) (imm.extractLsb' 0 5) 0 3).trans <|
  extract_append_lo (imm.extractLsb' 5 7 ++ rs2 ++ rs1) f3

@[simp] theorem rs1Of_encS : rs1Of (encS imm rs2 rs1 f3 op) = rs1 :=
  (extract_append_hi (imm.extractLsb' 5 7 ++ rs2 ++ rs1 ++ f3 ++ imm.extractLsb' 0 5) op 8 5).trans <|
  (extract_append_hi (imm.extractLsb' 5 7 ++ rs2 ++ rs1 ++ f3) (imm.extractLsb' 0 5) 3 5).trans <|
  (extract_append_hi (imm.extractLsb' 5 7 ++ rs2 ++ rs1) f3 0 5).trans <|
  extract_append_lo (imm.extractLsb' 5 7 ++ rs2) rs1

@[simp] theorem rs2Of_encS : rs2Of (encS imm rs2 rs1 f3 op) = rs2 :=
  (extract_append_hi (imm.extractLsb' 5 7 ++ rs2 ++ rs1 ++ f3 ++ imm.extractLsb' 0 5) op 13 5).trans <|
  (extract_append_hi (imm.extractLsb' 5 7 ++ rs2 ++ rs1 ++ f3) (imm.extractLsb' 0 5) 8 5).trans <|
  (extract_append_hi (imm.extractLsb' 5 7 ++ rs2 ++ rs1) f3 5 5).trans <|
  (extract_append_hi (imm.extractLsb' 5 7 ++ rs2) rs1 0 5).trans <|
  extract_append_lo (imm.extractLsb' 5 7) rs2

theorem extract_25_7_encS :
    (encS imm rs2 rs1 f3 op).extractLsb' 25 7 = imm.extractLsb' 5 7 :=
  (extract_append_hi (imm.extractLsb' 5 7 ++ rs2 ++ rs1 ++ f3 ++ imm.extractLsb' 0 5) op 18 7).trans <|
  (extract_append_hi (imm.extractLsb' 5 7 ++ rs2 ++ rs1 ++ f3) (imm.extractLsb' 0 5) 13 7).trans <|
  (extract_append_hi (imm.extractLsb' 5 7 ++ rs2 ++ rs1) f3 10 7).trans <|
  (extract_append_hi (imm.extractLsb' 5 7 ++ rs2) rs1 5 7).trans <|
  (extract_append_hi (imm.extractLsb' 5 7) rs2 0 7).trans <|
  extract_self (imm.extractLsb' 5 7)

/-! ## B format -/

@[simp] theorem opcodeOf_encB : opcodeOf (encB imm rs2 rs1 f3 op) = op :=
  extract_append_lo (imm.extractLsb' 12 1 ++ imm.extractLsb' 5 6 ++ rs2 ++ rs1 ++ f3 ++ imm.extractLsb' 1 4 ++ imm.extractLsb' 11 1) op

theorem extract_7_1_encB :
    (encB imm rs2 rs1 f3 op).extractLsb' 7 1 = imm.extractLsb' 11 1 :=
  (extract_append_hi (imm.extractLsb' 12 1 ++ imm.extractLsb' 5 6 ++ rs2 ++ rs1 ++ f3 ++ imm.extractLsb' 1 4 ++ imm.extractLsb' 11 1) op 0 1).trans <|
  extract_append_lo (imm.extractLsb' 12 1 ++ imm.extractLsb' 5 6 ++ rs2 ++ rs1 ++ f3 ++ imm.extractLsb' 1 4) (imm.extractLsb' 11 1)

theorem extract_8_4_encB :
    (encB imm rs2 rs1 f3 op).extractLsb' 8 4 = imm.extractLsb' 1 4 :=
  (extract_append_hi (imm.extractLsb' 12 1 ++ imm.extractLsb' 5 6 ++ rs2 ++ rs1 ++ f3 ++ imm.extractLsb' 1 4 ++ imm.extractLsb' 11 1) op 1 4).trans <|
  (extract_append_hi (imm.extractLsb' 12 1 ++ imm.extractLsb' 5 6 ++ rs2 ++ rs1 ++ f3 ++ imm.extractLsb' 1 4) (imm.extractLsb' 11 1) 0 4).trans <|
  extract_append_lo (imm.extractLsb' 12 1 ++ imm.extractLsb' 5 6 ++ rs2 ++ rs1 ++ f3) (imm.extractLsb' 1 4)

@[simp] theorem funct3Of_encB : funct3Of (encB imm rs2 rs1 f3 op) = f3 :=
  (extract_append_hi (imm.extractLsb' 12 1 ++ imm.extractLsb' 5 6 ++ rs2 ++ rs1 ++ f3 ++ imm.extractLsb' 1 4 ++ imm.extractLsb' 11 1) op 5 3).trans <|
  (extract_append_hi (imm.extractLsb' 12 1 ++ imm.extractLsb' 5 6 ++ rs2 ++ rs1 ++ f3 ++ imm.extractLsb' 1 4) (imm.extractLsb' 11 1) 4 3).trans <|
  (extract_append_hi (imm.extractLsb' 12 1 ++ imm.extractLsb' 5 6 ++ rs2 ++ rs1 ++ f3) (imm.extractLsb' 1 4) 0 3).trans <|
  extract_append_lo (imm.extractLsb' 12 1 ++ imm.extractLsb' 5 6 ++ rs2 ++ rs1) f3

@[simp] theorem rs1Of_encB : rs1Of (encB imm rs2 rs1 f3 op) = rs1 :=
  (extract_append_hi (imm.extractLsb' 12 1 ++ imm.extractLsb' 5 6 ++ rs2 ++ rs1 ++ f3 ++ imm.extractLsb' 1 4 ++ imm.extractLsb' 11 1) op 8 5).trans <|
  (extract_append_hi (imm.extractLsb' 12 1 ++ imm.extractLsb' 5 6 ++ rs2 ++ rs1 ++ f3 ++ imm.extractLsb' 1 4) (imm.extractLsb' 11 1) 7 5).trans <|
  (extract_append_hi (imm.extractLsb' 12 1 ++ imm.extractLsb' 5 6 ++ rs2 ++ rs1 ++ f3) (imm.extractLsb' 1 4) 3 5).trans <|
  (extract_append_hi (imm.extractLsb' 12 1 ++ imm.extractLsb' 5 6 ++ rs2 ++ rs1) f3 0 5).trans <|
  extract_append_lo (imm.extractLsb' 12 1 ++ imm.extractLsb' 5 6 ++ rs2) rs1

@[simp] theorem rs2Of_encB : rs2Of (encB imm rs2 rs1 f3 op) = rs2 :=
  (extract_append_hi (imm.extractLsb' 12 1 ++ imm.extractLsb' 5 6 ++ rs2 ++ rs1 ++ f3 ++ imm.extractLsb' 1 4 ++ imm.extractLsb' 11 1) op 13 5).trans <|
  (extract_append_hi (imm.extractLsb' 12 1 ++ imm.extractLsb' 5 6 ++ rs2 ++ rs1 ++ f3 ++ imm.extractLsb' 1 4) (imm.extractLsb' 11 1) 12 5).trans <|
  (extract_append_hi (imm.extractLsb' 12 1 ++ imm.extractLsb' 5 6 ++ rs2 ++ rs1 ++ f3) (imm.extractLsb' 1 4) 8 5).trans <|
  (extract_append_hi (imm.extractLsb' 12 1 ++ imm.extractLsb' 5 6 ++ rs2 ++ rs1) f3 5 5).trans <|
  (extract_append_hi (imm.extractLsb' 12 1 ++ imm.extractLsb' 5 6 ++ rs2) rs1 0 5).trans <|
  extract_append_lo (imm.extractLsb' 12 1 ++ imm.extractLsb' 5 6) rs2

theorem extract_25_6_encB :
    (encB imm rs2 rs1 f3 op).extractLsb' 25 6 = imm.extractLsb' 5 6 :=
  (extract_append_hi (imm.extractLsb' 12 1 ++ imm.extractLsb' 5 6 ++ rs2 ++ rs1 ++ f3 ++ imm.extractLsb' 1 4 ++ imm.extractLsb' 11 1) op 18 6).trans <|
  (extract_append_hi (imm.extractLsb' 12 1 ++ imm.extractLsb' 5 6 ++ rs2 ++ rs1 ++ f3 ++ imm.extractLsb' 1 4) (imm.extractLsb' 11 1) 17 6).trans <|
  (extract_append_hi (imm.extractLsb' 12 1 ++ imm.extractLsb' 5 6 ++ rs2 ++ rs1 ++ f3) (imm.extractLsb' 1 4) 13 6).trans <|
  (extract_append_hi (imm.extractLsb' 12 1 ++ imm.extractLsb' 5 6 ++ rs2 ++ rs1) f3 10 6).trans <|
  (extract_append_hi (imm.extractLsb' 12 1 ++ imm.extractLsb' 5 6 ++ rs2) rs1 5 6).trans <|
  (extract_append_hi (imm.extractLsb' 12 1 ++ imm.extractLsb' 5 6) rs2 0 6).trans <|
  extract_append_lo (imm.extractLsb' 12 1) (imm.extractLsb' 5 6)

theorem extract_31_1_encB :
    (encB imm rs2 rs1 f3 op).extractLsb' 31 1 = imm.extractLsb' 12 1 :=
  (extract_append_hi (imm.extractLsb' 12 1 ++ imm.extractLsb' 5 6 ++ rs2 ++ rs1 ++ f3 ++ imm.extractLsb' 1 4 ++ imm.extractLsb' 11 1) op 24 1).trans <|
  (extract_append_hi (imm.extractLsb' 12 1 ++ imm.extractLsb' 5 6 ++ rs2 ++ rs1 ++ f3 ++ imm.extractLsb' 1 4) (imm.extractLsb' 11 1) 23 1).trans <|
  (extract_append_hi (imm.extractLsb' 12 1 ++ imm.extractLsb' 5 6 ++ rs2 ++ rs1 ++ f3) (imm.extractLsb' 1 4) 19 1).trans <|
  (extract_append_hi (imm.extractLsb' 12 1 ++ imm.extractLsb' 5 6 ++ rs2 ++ rs1) f3 16 1).trans <|
  (extract_append_hi (imm.extractLsb' 12 1 ++ imm.extractLsb' 5 6 ++ rs2) rs1 11 1).trans <|
  (extract_append_hi (imm.extractLsb' 12 1 ++ imm.extractLsb' 5 6) rs2 6 1).trans <|
  (extract_append_hi (imm.extractLsb' 12 1) (imm.extractLsb' 5 6) 0 1).trans <|
  extract_self (imm.extractLsb' 12 1)

/-! ## U format -/

@[simp] theorem opcodeOf_encU : opcodeOf (encU imm rd op) = op :=
  extract_append_lo (imm.extractLsb' 12 20 ++ rd) op

@[simp] theorem rdOf_encU : rdOf (encU imm rd op) = rd :=
  (extract_append_hi (imm.extractLsb' 12 20 ++ rd) op 0 5).trans <|
  extract_append_lo (imm.extractLsb' 12 20) rd

theorem extract_12_20_encU :
    (encU imm rd op).extractLsb' 12 20 = imm.extractLsb' 12 20 :=
  (extract_append_hi (imm.extractLsb' 12 20 ++ rd) op 5 20).trans <|
  (extract_append_hi (imm.extractLsb' 12 20) rd 0 20).trans <|
  extract_self (imm.extractLsb' 12 20)

/-! ## J format -/

@[simp] theorem opcodeOf_encJ : opcodeOf (encJ imm rd op) = op :=
  extract_append_lo (imm.extractLsb' 20 1 ++ imm.extractLsb' 1 10 ++ imm.extractLsb' 11 1 ++ imm.extractLsb' 12 8 ++ rd) op

@[simp] theorem rdOf_encJ : rdOf (encJ imm rd op) = rd :=
  (extract_append_hi (imm.extractLsb' 20 1 ++ imm.extractLsb' 1 10 ++ imm.extractLsb' 11 1 ++ imm.extractLsb' 12 8 ++ rd) op 0 5).trans <|
  extract_append_lo (imm.extractLsb' 20 1 ++ imm.extractLsb' 1 10 ++ imm.extractLsb' 11 1 ++ imm.extractLsb' 12 8) rd

theorem extract_12_8_encJ :
    (encJ imm rd op).extractLsb' 12 8 = imm.extractLsb' 12 8 :=
  (extract_append_hi (imm.extractLsb' 20 1 ++ imm.extractLsb' 1 10 ++ imm.extractLsb' 11 1 ++ imm.extractLsb' 12 8 ++ rd) op 5 8).trans <|
  (extract_append_hi (imm.extractLsb' 20 1 ++ imm.extractLsb' 1 10 ++ imm.extractLsb' 11 1 ++ imm.extractLsb' 12 8) rd 0 8).trans <|
  extract_append_lo (imm.extractLsb' 20 1 ++ imm.extractLsb' 1 10 ++ imm.extractLsb' 11 1) (imm.extractLsb' 12 8)

theorem extract_20_1_encJ :
    (encJ imm rd op).extractLsb' 20 1 = imm.extractLsb' 11 1 :=
  (extract_append_hi (imm.extractLsb' 20 1 ++ imm.extractLsb' 1 10 ++ imm.extractLsb' 11 1 ++ imm.extractLsb' 12 8 ++ rd) op 13 1).trans <|
  (extract_append_hi (imm.extractLsb' 20 1 ++ imm.extractLsb' 1 10 ++ imm.extractLsb' 11 1 ++ imm.extractLsb' 12 8) rd 8 1).trans <|
  (extract_append_hi (imm.extractLsb' 20 1 ++ imm.extractLsb' 1 10 ++ imm.extractLsb' 11 1) (imm.extractLsb' 12 8) 0 1).trans <|
  extract_append_lo (imm.extractLsb' 20 1 ++ imm.extractLsb' 1 10) (imm.extractLsb' 11 1)

theorem extract_21_10_encJ :
    (encJ imm rd op).extractLsb' 21 10 = imm.extractLsb' 1 10 :=
  (extract_append_hi (imm.extractLsb' 20 1 ++ imm.extractLsb' 1 10 ++ imm.extractLsb' 11 1 ++ imm.extractLsb' 12 8 ++ rd) op 14 10).trans <|
  (extract_append_hi (imm.extractLsb' 20 1 ++ imm.extractLsb' 1 10 ++ imm.extractLsb' 11 1 ++ imm.extractLsb' 12 8) rd 9 10).trans <|
  (extract_append_hi (imm.extractLsb' 20 1 ++ imm.extractLsb' 1 10 ++ imm.extractLsb' 11 1) (imm.extractLsb' 12 8) 1 10).trans <|
  (extract_append_hi (imm.extractLsb' 20 1 ++ imm.extractLsb' 1 10) (imm.extractLsb' 11 1) 0 10).trans <|
  extract_append_lo (imm.extractLsb' 20 1) (imm.extractLsb' 1 10)

theorem extract_31_1_encJ :
    (encJ imm rd op).extractLsb' 31 1 = imm.extractLsb' 20 1 :=
  (extract_append_hi (imm.extractLsb' 20 1 ++ imm.extractLsb' 1 10 ++ imm.extractLsb' 11 1 ++ imm.extractLsb' 12 8 ++ rd) op 24 1).trans <|
  (extract_append_hi (imm.extractLsb' 20 1 ++ imm.extractLsb' 1 10 ++ imm.extractLsb' 11 1 ++ imm.extractLsb' 12 8) rd 19 1).trans <|
  (extract_append_hi (imm.extractLsb' 20 1 ++ imm.extractLsb' 1 10 ++ imm.extractLsb' 11 1) (imm.extractLsb' 12 8) 11 1).trans <|
  (extract_append_hi (imm.extractLsb' 20 1 ++ imm.extractLsb' 1 10) (imm.extractLsb' 11 1) 10 1).trans <|
  (extract_append_hi (imm.extractLsb' 20 1) (imm.extractLsb' 1 10) 0 1).trans <|
  extract_self (imm.extractLsb' 20 1)

end Fields

/-- A CSR immediate stands where `rs1` stands. -/
@[simp] theorem uimmOf_encI (imm12 : BitVec 12) (u : BitVec 5) (f3 : BitVec 3) (rd : Reg)
    (op : BitVec 7) : uimmOf (encI imm12 u f3 rd op) = u := rs1Of_encI u rd f3 op imm12

/-- A shift amount stands where `rs2` stands. -/
@[simp] theorem shamtOf_encR (f7 : BitVec 7) (sh : BitVec 5) (rs1 rd : Reg) (f3 : BitVec 3)
    (op : BitVec 7) : shamtOf (encR f7 sh rs1 f3 rd op) = sh := rs2Of_encR f7 sh rs1 rd f3 op

/-- The I immediate of an encoded word is the extension of the field. -/
@[simp] theorem immI_encI (rs1 rd : Reg) (f3 : BitVec 3) (op : BitVec 7) (imm12 : BitVec 12) :
    immI (encI imm12 rs1 f3 rd op) = imm12.signExtend 32 :=
  congrArg (·.signExtend 32) (csrnoOf_encI rs1 rd f3 op imm12)

/-! ## Immediates a format can hold -/

/-- An immediate in the range of `n` signed bits is the sign extension of its low `n` bits. -/
theorem signExtend_extract_of_range (n : Nat) (hn : 0 < n) (hn' : n ≤ 32) (imm : Word)
    (hlo : -(2 ^ (n - 1) : Int) ≤ imm.toInt) (hhi : imm.toInt < 2 ^ (n - 1)) :
    (imm.extractLsb' 0 n).signExtend 32 = imm := by
  apply BitVec.eq_of_toInt_eq
  have he : imm.extractLsb' 0 n = imm.setWidth n := by
    apply BitVec.eq_of_getLsbD_eq
    intro i hi
    simp [hi]
  have hp : (2 : Int) ^ n = 2 * 2 ^ (n - 1) := by
    rw [← pow_succ', Nat.sub_add_cancel hn]
  have hm : ((imm.toNat : Int)).bmod (2 ^ n) = imm.toInt.bmod (2 ^ n) := by
    rw [BitVec.toInt_eq_toNat_bmod imm, Int.bmod_bmod_of_dvd (Nat.pow_dvd_pow 2 hn')]
  rw [he, BitVec.toInt_signExtend, BitVec.toInt_setWidth, Nat.min_eq_right hn', Int.bmod_bmod, hm]
  apply Int.bmod_eq_of_le <;> push_cast <;> omega

/-- An I or S immediate is the extension of its low 12 bits (R310, R311). -/
theorem signExtend_low12 {imm : Word} (h : fits12 imm = true) :
    (low12 imm).signExtend 32 = imm := by
  simp only [fits12, Bool.and_eq_true, decide_eq_true_eq] at h
  exact signExtend_extract_of_range 12 (by omega) (by omega) imm (by norm_num; omega)
    (by norm_num; omega)

/-- Bit 0 of an even word is 0. -/
theorem extract_bit0_of_even {imm : Word} (h : imm.toNat % 2 = 0) :
    imm.extractLsb' 0 1 = 0#1 := by
  apply BitVec.eq_of_toNat_eq
  simp [BitVec.extractLsb'_toNat, h]

/-- The low 12 bits of a multiple of 4096 are 0. -/
theorem extract_low12_of_upper {imm : Word} (h : fitsUpper imm = true) :
    imm.extractLsb' 0 12 = 0#12 := by
  apply BitVec.eq_of_toNat_eq
  simpa [BitVec.extractLsb'_toNat, fitsUpper] using h

/-! ## The immediates of encoded words (R311 to R314) -/

theorem immS_encS {imm : Word} (rs2 rs1 : Reg) (f3 : BitVec 3) (op : BitVec 7)
    (h : fits12 imm = true) : immS (encS imm rs2 rs1 f3 op) = imm := by
  have hg := extract_glue imm 0 7 5
  rw [immS, extract_25_7_encS, extract_7_5_encS]
  exact (congrArg (·.signExtend 32) hg).trans (signExtend_low12 h)

theorem immU_encU {imm : Word} (rd : Reg) (op : BitVec 7) (h : fitsUpper imm = true) :
    immU (encU imm rd op) = imm := by
  rw [immU, extract_12_20_encU, ← extract_low12_of_upper h]
  exact (extract_glue imm 0 20 12).trans (extract_self imm)

theorem immB_encB {imm : Word} (rs2 rs1 : Reg) (f3 : BitVec 3) (op : BitVec 7)
    (h : fits13 imm = true) : immB (encB imm rs2 rs1 f3 op) = imm := by
  simp only [fits13, Bool.and_eq_true, decide_eq_true_eq] at h
  rw [immB, extract_31_1_encB, extract_7_1_encB, extract_25_6_encB, extract_8_4_encB,
    ← extract_bit0_of_even h.2]
  have hg : imm.extractLsb' 12 1 ++ imm.extractLsb' 11 1 ++ imm.extractLsb' 5 6
      ++ imm.extractLsb' 1 4 ++ imm.extractLsb' 0 1 = imm.extractLsb' 0 13 := by
    have h1 := extract_glue imm 11 1 1
    have h2 := extract_glue imm 5 2 6
    have h3 := extract_glue imm 1 8 4
    have h4 := extract_glue imm 0 12 1
    simp only [Nat.reduceAdd] at h1 h2 h3 h4
    rw [h1, h2, h3, h4]
  exact (congrArg (·.signExtend 32) hg).trans
    (signExtend_extract_of_range 13 (by omega) (by omega) imm (by norm_num; omega)
      (by norm_num; omega))

theorem immJ_encJ {imm : Word} (rd : Reg) (op : BitVec 7) (h : fits21 imm = true) :
    immJ (encJ imm rd op) = imm := by
  simp only [fits21, Bool.and_eq_true, decide_eq_true_eq] at h
  rw [immJ, extract_31_1_encJ, extract_12_8_encJ, extract_20_1_encJ, extract_21_10_encJ,
    ← extract_bit0_of_even h.2]
  have hg : imm.extractLsb' 20 1 ++ imm.extractLsb' 12 8 ++ imm.extractLsb' 11 1
      ++ imm.extractLsb' 1 10 ++ imm.extractLsb' 0 1 = imm.extractLsb' 0 21 := by
    have h1 := extract_glue imm 12 1 8
    have h2 := extract_glue imm 11 9 1
    have h3 := extract_glue imm 1 10 10
    have h4 := extract_glue imm 0 20 1
    simp only [Nat.reduceAdd] at h1 h2 h3 h4
    rw [h1, h2, h3, h4]
  exact (congrArg (·.signExtend 32) hg).trans
    (signExtend_extract_of_range 21 (by omega) (by omega) imm (by norm_num; omega)
      (by norm_num; omega))

/-! ## The masks of spec/opcode_table.json in terms of fields -/

theorem and_mask_opcode (w : Word) : w &&& 0x0000007F#32 = (opcodeOf w).setWidth 32 := by
  apply BitVec.eq_of_getLsbD_eq
  intro i hi
  interval_cases i <;> simp [opcodeOf]

theorem and_mask_funct3 (w : Word) :
    w &&& 0x0000707F#32 = (funct3Of w).setWidth 32 <<< 12 ||| (opcodeOf w).setWidth 32 := by
  apply BitVec.eq_of_getLsbD_eq
  intro i hi
  interval_cases i <;> simp [opcodeOf, funct3Of]

theorem and_mask_funct7 (w : Word) :
    w &&& 0xFE00707F#32 = (funct7Of w).setWidth 32 <<< 25 ||| (funct3Of w).setWidth 32 <<< 12
      ||| (opcodeOf w).setWidth 32 := by
  apply BitVec.eq_of_getLsbD_eq
  intro i hi
  interval_cases i <;> simp [opcodeOf, funct3Of, funct7Of]

end Sys2Proof
end

