-- ==== Sys2Proof/Laws/State.lean ====
section
/-! SUPPORT. One lemma per field per update, and the register file's read-after-write laws. -/

set_option Elab.async false -- one proof at a time: each waiting proof would hold a thread's stack

namespace Sys2Proof.Machine

section Updates
variable (s : State) (r : Reg) (c : CsrIdx) (v t : Word)

@[simp] theorem setPc_pc : (s.setPc t).pc = t := rfl
@[simp] theorem setPc_regs : (s.setPc t).regs = s.regs := rfl
@[simp] theorem setPc_csr : (s.setPc t).csr = s.csr := rfl
@[simp] theorem setPc_mem : (s.setPc t).mem = s.mem := rfl
@[simp] theorem setPc_x : (s.setPc t).x r = s.x r := rfl
@[simp] theorem setPc_csrRead : (s.setPc t).csrRead c = s.csrRead c := rfl
@[simp] theorem setPc_csrWf : (s.setPc t).csrWf = s.csrWf := rfl

@[simp] theorem csrWrite_pc : (s.csrWrite c v).pc = s.pc := rfl
@[simp] theorem csrWrite_regs : (s.csrWrite c v).regs = s.regs := rfl
@[simp] theorem csrWrite_mem : (s.csrWrite c v).mem = s.mem := rfl
@[simp] theorem csrWrite_x : (s.csrWrite c v).x r = s.x r := rfl
@[simp] theorem csrWrite_csr : (s.csrWrite c v).csr = cellPut csrUnlisted c.toNat v s.csr := rfl

@[simp] theorem setX_pc : (s.setX r v).pc = s.pc := by unfold State.setX; split <;> rfl
@[simp] theorem setX_csr : (s.setX r v).csr = s.csr := by unfold State.setX; split <;> rfl
@[simp] theorem setX_mem : (s.setX r v).mem = s.mem := by unfold State.setX; split <;> rfl
@[simp] theorem setX_csrRead : (s.setX r v).csrRead c = s.csrRead c := by
  simp only [State.csrRead, setX_csr]
@[simp] theorem setX_csrWf : (s.setX r v).csrWf = s.csrWf := by
  simp only [State.csrWf, setX_csr]
@[simp] theorem setX_zero : s.setX 0#5 v = s := rfl

@[simp] theorem withMem_pc (m : Memory) : ({ s with mem := m } : State).pc = s.pc := rfl
@[simp] theorem withMem_x (m : Memory) : ({ s with mem := m } : State).x r = s.x r := rfl
@[simp] theorem withMem_csrRead (m : Memory) :
    ({ s with mem := m } : State).csrRead c = s.csrRead c := rfl
@[simp] theorem withMem_csrWf (m : Memory) : ({ s with mem := m } : State).csrWf = s.csrWf := rfl

end Updates

/-- Register 0 reads as zero (R102). -/
@[simp] theorem x_zero (s : State) : s.x 0#5 = 0#32 := rfl

/-- Reading after a register write: the written value in `rd` unless it is register 0, and the
old value everywhere else (R103). -/
theorem x_setX (s : State) (rd r : Reg) (v : Word) :
    (s.setX rd v).x r = if r = rd ∧ rd ≠ 0#5 then v else s.x r := by
  unfold State.setX
  by_cases h0 : rd = 0#5
  · simp [h0]
  · by_cases hr : r = 0#5
    · have : r ≠ rd := fun h => h0 (h ▸ hr)
      simp [h0, hr, State.x, Ne.symm h0]
    · by_cases he : r = rd
      · subst he; simp [State.x, hr]
      · have hn : rd.toNat ≠ r.toNat := fun h => he (BitVec.eq_of_toNat_eq h).symm
        simp [State.x, h0, hr, he, hn]

/-- No register write changes the stored register 0 (R103). -/
theorem setX_regs_zero (s : State) (rd : Reg) (v : Word) :
    (s.setX rd v).regs[0] = s.regs[0] := by
  unfold State.setX
  split
  · rfl
  · rename_i h
    have hn : rd.toNat ≠ 0 := fun h' => h (BitVec.eq_of_toNat_eq h')
    simp [hn]

end Sys2Proof.Machine
end

