-- ==== Sys2Proof/Laws/Memory.lean ====
section
/-! SUPPORT. The laws of sparse storage, and from them those of memory and of the CSR file: a read
after a write, the frame of a write, and that every operation keeps the canonical form. -/

set_option Elab.async false -- one proof at a time: each waiting proof would hold a thread's stack

namespace Sys2Proof.Machine

section Cells
variable {w : Nat} (dflt : BitVec w)

theorem cellGet_remove_same (k : Nat) (cells : List (Nat × BitVec w)) :
    cellGet dflt k (cellRemove k cells) = dflt := by
  induction cells with
  | nil => rfl
  | cons c rest ih =>
    unfold cellRemove
    split
    · exact ih
    · rename_i h; simp [cellGet, h, ih]

theorem cellGet_remove_other {k a : Nat} (h : a ≠ k) (cells : List (Nat × BitVec w)) :
    cellGet dflt a (cellRemove k cells) = cellGet dflt a cells := by
  induction cells with
  | nil => rfl
  | cons c rest ih =>
    unfold cellRemove
    split
    · rename_i hk
      have : ¬ k = a := fun e => h e.symm
      simp [cellGet, hk, this, ih]
    · simp [cellGet, ih]

theorem cellGet_insert_other {k a : Nat} (v : BitVec w) (h : a ≠ k)
    (cells : List (Nat × BitVec w)) :
    cellGet dflt a (cellInsert k v cells) = cellGet dflt a cells := by
  have hk : ¬ k = a := fun e => h e.symm
  induction cells with
  | nil => simp [cellInsert, cellGet, hk]
  | cons c rest ih =>
    unfold cellInsert
    split
    · simp [cellGet, hk]
    · simp [cellGet, ih]

theorem cellGet_insert_remove_same (k : Nat) (v : BitVec w) (cells : List (Nat × BitVec w)) :
    cellGet dflt k (cellInsert k v (cellRemove k cells)) = v := by
  induction cells with
  | nil => simp [cellRemove, cellInsert, cellGet]
  | cons c rest ih =>
    unfold cellRemove
    split
    · exact ih
    · rename_i hc
      unfold cellInsert
      split
      · simp [cellGet]
      · simp [cellGet, hc, ih]

/-- A read after a write, for every list. -/
theorem cellGet_put (k a : Nat) (v : BitVec w) (cells : List (Nat × BitVec w)) :
    cellGet dflt a (cellPut dflt k v cells) = if a = k then v else cellGet dflt a cells := by
  unfold cellPut
  by_cases h : a = k
  · subst h
    split
    · rename_i hv; simp [cellGet_remove_same, hv]
    · simp [cellGet_insert_remove_same]
  · split
    · rw [cellGet_remove_other dflt h]
    · rw [cellGet_insert_other dflt v h, cellGet_remove_other dflt h]

variable {bound : Nat}

theorem cellsWf_mono {lo lo' : Nat} (h : lo' ≤ lo) {cells : List (Nat × BitVec w)}
    (hw : cellsWf dflt bound lo cells = true) : cellsWf dflt bound lo' cells = true := by
  cases cells with
  | nil => rfl
  | cons c rest =>
    simp only [cellsWf, Bool.and_eq_true, decide_eq_true_eq] at hw ⊢
    exact ⟨⟨⟨by omega, hw.1.1.2⟩, hw.1.2⟩, hw.2⟩

theorem cellRemove_wf (k : Nat) {lo : Nat} {cells : List (Nat × BitVec w)}
    (hw : cellsWf dflt bound lo cells = true) :
    cellsWf dflt bound lo (cellRemove k cells) = true := by
  induction cells generalizing lo with
  | nil => rfl
  | cons c rest ih =>
    simp only [cellsWf, Bool.and_eq_true, decide_eq_true_eq] at hw
    unfold cellRemove
    split
    · exact cellsWf_mono dflt (by omega) (ih hw.2)
    · simp only [cellsWf, Bool.and_eq_true, decide_eq_true_eq]
      exact ⟨hw.1, ih hw.2⟩

/-- Inserting a key that is not listed keeps the canonical form. -/
theorem cellInsert_remove_wf {k lo : Nat} {v : BitVec w} (hk : k < bound) (hv : v ≠ dflt)
    (hlo : lo ≤ k) {cells : List (Nat × BitVec w)} (hw : cellsWf dflt bound lo cells = true) :
    cellsWf dflt bound lo (cellInsert k v (cellRemove k cells)) = true := by
  induction cells generalizing lo with
  | nil => simp [cellRemove, cellInsert, cellsWf, hk, hv, hlo]
  | cons c rest ih =>
    simp only [cellsWf, Bool.and_eq_true, decide_eq_true_eq] at hw
    unfold cellRemove
    split
    · exact ih hlo (cellsWf_mono dflt (by omega) hw.2)
    · rename_i hc
      unfold cellInsert
      split
      · rename_i hlt
        simp only [cellsWf, Bool.and_eq_true, decide_eq_true_eq]
        exact ⟨⟨⟨hlo, hk⟩, hv⟩, ⟨⟨by omega, hw.1.1.2⟩, hw.1.2⟩, cellRemove_wf dflt k hw.2⟩
      · simp only [cellsWf, Bool.and_eq_true, decide_eq_true_eq]
        exact ⟨hw.1, ih (by omega) hw.2⟩

/-- A write below the bound keeps the canonical form. -/
theorem cellPut_wf {k : Nat} (hk : k < bound) (v : BitVec w) {cells : List (Nat × BitVec w)}
    (hw : cellsWf dflt bound 0 cells = true) :
    cellsWf dflt bound 0 (cellPut dflt k v cells) = true := by
  unfold cellPut
  split
  · exact cellRemove_wf dflt k hw
  · rename_i hv; exact cellInsert_remove_wf dflt hk hv (Nat.zero_le k) hw

end Cells

/-! ## The CSR file -/

/-- A CSR read after a CSR write. -/
theorem csrRead_csrWrite (s : State) (c d : CsrIdx) (v : Word) :
    (s.csrWrite c v).csrRead d = if d = c then v else s.csrRead d := by
  simp only [State.csrRead, csrWrite_csr, cellGet_put, BitVec.toNat_inj]

/-- A CSR write keeps the CSR file's canonical form. -/
theorem csrWrite_wf (s : State) (c : CsrIdx) (v : Word) (hw : s.csrWf = true) :
    (s.csrWrite c v).csrWf = true :=
  cellPut_wf csrUnlisted c.isLt v hw

/-! ## Memory -/

section Memory
variable (m : Memory)

@[simp] theorem setByte_size (a : Nat) (b : Byte) : (m.setByte a b).size = m.size := rfl

/-- A byte read after a byte write. -/
theorem byte_setByte (a c : Nat) (b : Byte) :
    (m.setByte a b).byte c = if c = a then b else m.byte c :=
  cellGet_put Memory.unlisted a c b m.cells

/-- A byte write inside the buffer keeps the canonical form. -/
theorem setByte_wf {a : Nat} (b : Byte) (ha : a < m.size) (hw : m.wf = true) :
    (m.setByte a b).wf = true :=
  cellPut_wf Memory.unlisted ha b hw

@[simp] theorem writeBytes_size (a : Nat) (bs : List Byte) : (m.writeBytes a bs).size = m.size := by
  induction bs generalizing m a with
  | nil => rfl
  | cons b rest ih => simp [Memory.writeBytes, ih]

/-- A byte read after a run of bytes is written: the byte of the run, or the old byte outside
it. -/
theorem byte_writeBytes (a c : Nat) (bs : List Byte) :
    (m.writeBytes a bs).byte c = if h : a ≤ c ∧ c - a < bs.length then bs[c - a] else m.byte c := by
  induction bs generalizing m a with
  | nil => simp [Memory.writeBytes]
  | cons b rest ih =>
    rw [Memory.writeBytes, ih, byte_setByte]
    by_cases h : c = a
    · subst h; simp
    · by_cases h1 : a + 1 ≤ c ∧ c - (a + 1) < rest.length
      · have h2 : a ≤ c ∧ c - a < (b :: rest).length := by simp; omega
        have h3 : c - a = (c - (a + 1)) + 1 := by omega
        rw [dif_pos h1, dif_pos h2]
        simp only [h3, List.getElem_cons_succ]
      · have h2 : ¬ (a ≤ c ∧ c - a < (b :: rest).length) := by simp; omega
        rw [dif_neg h1, dif_neg h2, if_neg h]

/-- A run of bytes inside the buffer keeps the canonical form. -/
theorem writeBytes_wf {a : Nat} (bs : List Byte) (ha : a + bs.length ≤ m.size)
    (hw : m.wf = true) : (m.writeBytes a bs).wf = true := by
  induction bs generalizing m a with
  | nil => exact hw
  | cons b rest ih =>
    simp only [List.length_cons] at ha
    exact ih _ (by rw [setByte_size]; omega) (setByte_wf m b (by omega) hw)

@[simp] theorem length_bytesOfWord (n : Nat) (v : Word) : (bytesOfWord n v).length = n := by
  simp [bytesOfWord]

@[simp] theorem write_size (a n : Nat) (v : Word) : (m.write a n v).size = m.size :=
  writeBytes_size m a _

/-- A byte read after `MemWrite(a, n, v)` (R207). -/
theorem byte_write (a n c : Nat) (v : Word) :
    (m.write a n v).byte c =
      if a ≤ c ∧ c < a + n then v.extractLsb' (8 * (c - a)) 8 else m.byte c := by
  have hl := length_bytesOfWord n v
  rw [Memory.write, byte_writeBytes]
  by_cases h : a ≤ c ∧ c < a + n
  · have h1 : a ≤ c ∧ c - a < (bytesOfWord n v).length := by omega
    rw [if_pos h, dif_pos h1]
    simp [bytesOfWord]
  · have h1 : ¬ (a ≤ c ∧ c - a < (bytesOfWord n v).length) := by omega
    rw [if_neg h, dif_neg h1]

/-- `MemWrite` inside the buffer keeps the canonical form. -/
theorem write_wf {a n : Nat} (v : Word) (ha : a + n ≤ m.size) (hw : m.wf = true) :
    (m.write a n v).wf = true :=
  writeBytes_wf m _ (by rw [length_bytesOfWord]; exact ha) hw

/-- The four bytes of a word, put together, are the word. -/
theorem wordOfBytes_extract (v : Word) :
    wordOfBytes (v.extractLsb' 0 8) (v.extractLsb' 8 8) (v.extractLsb' 16 8) (v.extractLsb' 24 8)
      = v := by
  apply BitVec.eq_of_getLsbD_eq
  intro i hi
  simp only [wordOfBytes, BitVec.getLsbD_append, BitVec.getLsbD_extractLsb']
  by_cases h1 : i < 8
  · simp [h1]
  · by_cases h2 : i - 8 < 8
    · simp [h1, h2, show 8 + (i - 8) = i by omega]
    · by_cases h3 : i - 8 - 8 < 8
      · simp [h1, h2, h3, show 16 + (i - 8 - 8) = i by omega]
      · simp [h1, h2, h3, show 24 + (i - 8 - 8 - 8) = i by omega, show i - 8 - 8 - 8 < 8 by omega]

/-- A word read where a word was written is that word, at any alignment (R209). -/
theorem read32_write (a : Nat) (v : Word) : (m.write a 4 v).read32 a = v := by
  simp only [Memory.read32, byte_write]
  simpa using wordOfBytes_extract v

end Memory

/-- Memory at reset is in canonical form. -/
theorem reset_mem_wf : State.reset.mem.wf = true := rfl

end Sys2Proof.Machine
end

