-- ==== Sys2Proof/Laws/Ops.lean ====
section
/-! SUPPORT. One lemma for each shared operation that says all it can do; proofs about an
instruction cite these. -/

set_option Elab.async false -- one proof at a time: each waiting proof would hold a thread's stack

namespace Sys2Proof.Machine

/-- `writeRegNext` always answers a next state: one register, the pc, nothing else. -/
theorem writeRegNext_spec (rd : Reg) (v : Word) (s : State) :
    ∃ t, writeRegNext rd v s = .next t ∧ t.pc = s.pc + 4#32 ∧ t.csr = s.csr ∧ t.mem = s.mem ∧
      t.regs[0] = s.regs[0] ∧ ∀ r, t.x r = if r = rd ∧ rd ≠ 0#5 then v else s.x r :=
  ⟨_, rfl, rfl, setX_csr s rd v, setX_mem s rd v, setX_regs_zero s rd v, fun r => x_setX s rd r v⟩

/-- `jumpLink` always answers a next state: the link register, the pc, nothing else. -/
theorem jumpLink_spec (rd : Reg) (target : Word) (s : State) :
    ∃ t, jumpLink rd target s = .next t ∧ t.pc = target ∧ t.csr = s.csr ∧ t.mem = s.mem ∧
      t.regs[0] = s.regs[0] ∧ ∀ r, t.x r = if r = rd ∧ rd ≠ 0#5 then s.pc + 4#32 else s.x r :=
  ⟨_, rfl, rfl, setX_csr s rd _, setX_mem s rd _, setX_regs_zero s rd _, fun r => x_setX s rd r _⟩

/-- `branchIf` always answers a next state that changes the pc alone. -/
theorem branchIf_spec (cond : Bool) (imm : Word) (s : State) :
    branchIf cond imm s = .next (s.setPc (if cond then s.pc + imm else s.pc + 4#32)) := rfl

/-- A load in bounds is a register write. -/
theorem loadReg_inBounds {n : Nat} (value : Memory → Nat → Word) (rd : Reg) {rs1 : Reg}
    {imm : Word} {s : State} (h : s.mem.InBounds (effAddr rs1 imm s) n) :
    loadReg n value rd rs1 imm s =
      writeRegNext rd (value s.mem (effAddr rs1 imm s).toNat) s :=
  if_pos h

/-- A load out of bounds fails. -/
theorem loadReg_outOfBounds {n : Nat} (value : Memory → Nat → Word) (rd : Reg) {rs1 : Reg}
    {imm : Word} {s : State} (h : ¬ s.mem.InBounds (effAddr rs1 imm s) n) :
    loadReg n value rd rs1 imm s = .fault (.outOfBoundsAccess (effAddr rs1 imm s) n) :=
  if_neg h

/-- A store in bounds writes its bytes and the pc, nothing else. -/
theorem storeReg_inBounds {n : Nat} {rs1 : Reg} (rs2 : Reg) {imm : Word} {s : State}
    (h : s.mem.InBounds (effAddr rs1 imm s) n) :
    ∃ t, storeReg n rs1 rs2 imm s = .next t ∧ t.pc = s.pc + 4#32 ∧ t.regs = s.regs ∧
      t.csr = s.csr ∧ t.mem = s.mem.write (effAddr rs1 imm s).toNat n (s.x rs2) :=
  ⟨_, if_pos h, rfl, rfl, rfl, rfl⟩

/-- A store out of bounds fails. -/
theorem storeReg_outOfBounds {n : Nat} {rs1 : Reg} (rs2 : Reg) {imm : Word} {s : State}
    (h : ¬ s.mem.InBounds (effAddr rs1 imm s) n) :
    storeReg n rs1 rs2 imm s = .fault (.outOfBoundsAccess (effAddr rs1 imm s) n) :=
  if_neg h

/-- `csrUpdate` always answers a next state: one register, one CSR, the pc, nothing else. -/
theorem csrUpdate_spec (f : Word → Word → Word) (rd : Reg) (c : CsrIdx) (src : Word) (s : State) :
    ∃ t, csrUpdate f rd c src s = .next t ∧ t.pc = s.pc + 4#32 ∧ t.mem = s.mem ∧
      t.csr = cellPut csrUnlisted c.toNat (f (s.csrRead c) src) s.csr ∧
      t.regs[0] = s.regs[0] ∧
      ∀ r, t.x r = if r = rd ∧ rd ≠ 0#5 then s.csrRead c else s.x r := by
  refine ⟨_, rfl, rfl, setX_mem s rd _, ?_, setX_regs_zero s rd _, fun r => x_setX s rd r _⟩
  simp

/-- Everything an instruction can do, for facts about every instruction: a register write, a jump
with link, a branch, an in-bounds store or a CSR update. -/
theorem exec_cases {i : Instr} {s t : State} (h : exec i s = .next t) :
    (∃ rd v, t = (s.setX rd v).setPc (s.pc + 4#32)) ∨
    (∃ rd target, t = (s.setX rd (s.pc + 4#32)).setPc target ∧
      ((∃ imm, i = .jal rd imm ∧ target = s.pc + imm) ∨
       (∃ rs1 imm, i = .jalr rd rs1 imm ∧ target = clearBit0 (s.x rs1 + imm)))) ∨
    (∃ imm, (∃ rs1 rs2, i = .beq rs1 rs2 imm ∨ i = .bne rs1 rs2 imm ∨ i = .blt rs1 rs2 imm ∨
        i = .bge rs1 rs2 imm ∨ i = .bltu rs1 rs2 imm ∨ i = .bgeu rs1 rs2 imm) ∧
      (t = s.setPc (s.pc + imm) ∨ t = s.setPc (s.pc + 4#32))) ∨
    (∃ (ea : Word) (n : Nat) (rs2 : Reg), ea.toNat + n ≤ s.mem.size ∧
      (∃ rs1 imm, i = .sb rs1 rs2 imm ∨ i = .sh rs1 rs2 imm ∨ i = .sw rs1 rs2 imm) ∧
      t = { s with mem := s.mem.write ea.toNat n (s.x rs2) }.setPc (s.pc + 4#32)) ∨
    (∃ rd c v, (∃ rs1, i = .csrrw rd rs1 c ∨ i = .csrrs rd rs1 c ∨ i = .csrrc rd rs1 c ∨
        i = .csrrwi rd rs1 c ∨ i = .csrrsi rd rs1 c ∨ i = .csrrci rd rs1 c) ∧
      t = ((s.setX rd (s.csrRead c)).csrWrite c v).setPc (s.pc + 4#32)) := by
  have load : ∀ {n : Nat} {value : Memory → Nat → Word} {rd rs1 : Reg} {imm : Word},
      loadReg n value rd rs1 imm s = .next t →
      ∃ rd v, t = (s.setX rd v).setPc (s.pc + 4#32) := by
    intro n value rd rs1 imm hl
    unfold loadReg at hl
    split at hl
    · cases hl; exact ⟨rd, _, rfl⟩
    · cases hl
  have branch : ∀ {cond : Bool} {imm : Word}, branchIf cond imm s = .next t →
      (t = s.setPc (s.pc + imm) ∨ t = s.setPc (s.pc + 4#32)) := by
    intro cond imm hb
    cases hb
    cases cond
    · exact .inr rfl
    · exact .inl rfl
  have store : ∀ {n : Nat} {rs1 rs2 : Reg} {imm : Word}, storeReg n rs1 rs2 imm s = .next t →
      ∃ ea : Word, ea.toNat + n ≤ s.mem.size ∧
        t = { s with mem := s.mem.write ea.toNat n (s.x rs2) }.setPc (s.pc + 4#32) := by
    intro n rs1 rs2 imm hs
    unfold storeReg at hs
    split at hs
    · rename_i hb; cases hs; exact ⟨_, hb, rfl⟩
    · cases hs
  cases i with
  | lui rd imm | auipc rd imm | addi rd rs1 imm | slti rd rs1 imm | sltiu rd rs1 imm
  | xori rd rs1 imm | ori rd rs1 imm | andi rd rs1 imm | slli rd rs1 sh | srli rd rs1 sh
  | srai rd rs1 sh | add rd rs1 rs2 | sub rd rs1 rs2 | sll rd rs1 rs2 | slt rd rs1 rs2
  | sltu rd rs1 rs2 | xor_ rd rs1 rs2 | srl rd rs1 rs2 | sra rd rs1 rs2 | or_ rd rs1 rs2
  | and_ rd rs1 rs2 => cases h; exact .inl ⟨rd, _, rfl⟩
  | lb rd rs1 imm | lh rd rs1 imm | lw rd rs1 imm | lbu rd rs1 imm | lhu rd rs1 imm =>
    simp only [exec, execLb, execLh, execLw, execLbu, execLhu] at h
    exact .inl (load h)
  | jal rd imm => cases h; exact .inr (.inl ⟨rd, _, rfl, .inl ⟨imm, rfl, rfl⟩⟩)
  | jalr rd rs1 imm => cases h; exact .inr (.inl ⟨rd, _, rfl, .inr ⟨rs1, imm, rfl, rfl⟩⟩)
  | beq rs1 rs2 imm | bne rs1 rs2 imm | blt rs1 rs2 imm | bge rs1 rs2 imm | bltu rs1 rs2 imm
  | bgeu rs1 rs2 imm => exact .inr (.inr (.inl ⟨imm, ⟨rs1, rs2, by simp⟩, branch h⟩))
  | sb rs1 rs2 imm | sh rs1 rs2 imm | sw rs1 rs2 imm =>
    obtain ⟨ea, hb, ht⟩ := store h
    exact .inr (.inr (.inr (.inl ⟨ea, _, rs2, hb, ⟨rs1, imm, by simp⟩, ht⟩)))
  | csrrw rd rs1 c | csrrs rd rs1 c | csrrc rd rs1 c | csrrwi rd rs1 c | csrrsi rd rs1 c
  | csrrci rd rs1 c =>
    cases h
    exact .inr (.inr (.inr (.inr ⟨rd, c, _, ⟨rs1, by simp⟩, rfl⟩)))
  | fence fm pred succ rs1 rd | fencei rd rs1 imm | ecall | ebreak => cases h

/-- A successful step is `exec` of the decoded instruction. -/
theorem step_next {s t : State} (h : step s = .next t) :
    ∃ i, fetchDecode s = .ok i ∧ exec i s = .next t := by
  unfold step at h
  split at h
  · rename_i i hi; exact ⟨i, hi, h⟩
  · cases h

end Sys2Proof.Machine
end

