-- ==== Sys2Proof/Laws/PerInstr.lean ====
section
/-! SUPPORT. The family `EncodesToItsRow`, per instruction: the word an instruction encodes to is
an instance of the instruction's row of spec/opcode_table.json, whatever its operands. -/

set_option Elab.async false -- one proof at a time: each waiting proof would hold a thread's stack

namespace Sys2Proof.Laws.EncodesToItsRow

/-- The encoded word matches the instruction's row. -/
def Statement (i : Instr) : Prop := (rowOf i).matches (encode i)

/-! The masked word of each format: its funct fields and its opcode. -/

variable (f7 op : BitVec 7) (f3 : BitVec 3) (rs2 rs1 rd : Reg) (imm : Word) (imm12 : BitVec 12)

theorem rowR : encR f7 rs2 rs1 f3 rd op &&& 0xFE00707F#32 =
    f7.setWidth 32 <<< 25 ||| f3.setWidth 32 <<< 12 ||| op.setWidth 32 := by
  rw [and_mask_funct7, funct7Of_encR, funct3Of_encR, opcodeOf_encR]

theorem rowI : encI imm12 rs1 f3 rd op &&& 0x0000707F#32 =
    f3.setWidth 32 <<< 12 ||| op.setWidth 32 := by
  rw [and_mask_funct3, funct3Of_encI, opcodeOf_encI]

theorem rowS : encS imm rs2 rs1 f3 op &&& 0x0000707F#32 =
    f3.setWidth 32 <<< 12 ||| op.setWidth 32 := by
  rw [and_mask_funct3, funct3Of_encS, opcodeOf_encS]

theorem rowB : encB imm rs2 rs1 f3 op &&& 0x0000707F#32 =
    f3.setWidth 32 <<< 12 ||| op.setWidth 32 := by
  rw [and_mask_funct3, funct3Of_encB, opcodeOf_encB]

theorem rowU : encU imm rd op &&& 0x0000007F#32 = op.setWidth 32 := by
  rw [and_mask_opcode, opcodeOf_encU]

theorem rowJ : encJ imm rd op &&& 0x0000007F#32 = op.setWidth 32 := by
  rw [and_mask_opcode, opcodeOf_encJ]

theorem lui (rd : Reg) (imm : Word) :
    Statement (.lui rd imm) :=
  rowU _ _ _

theorem auipc (rd : Reg) (imm : Word) :
    Statement (.auipc rd imm) :=
  rowU _ _ _

theorem jal (rd : Reg) (imm : Word) :
    Statement (.jal rd imm) :=
  rowJ _ _ _

theorem jalr (rd rs1 : Reg) (imm : Word) :
    Statement (.jalr rd rs1 imm) :=
  rowI _ _ _ _ _

theorem beq (rs1 rs2 : Reg) (imm : Word) :
    Statement (.beq rs1 rs2 imm) :=
  rowB _ _ _ _ _

theorem bne (rs1 rs2 : Reg) (imm : Word) :
    Statement (.bne rs1 rs2 imm) :=
  rowB _ _ _ _ _

theorem blt (rs1 rs2 : Reg) (imm : Word) :
    Statement (.blt rs1 rs2 imm) :=
  rowB _ _ _ _ _

theorem bge (rs1 rs2 : Reg) (imm : Word) :
    Statement (.bge rs1 rs2 imm) :=
  rowB _ _ _ _ _

theorem bltu (rs1 rs2 : Reg) (imm : Word) :
    Statement (.bltu rs1 rs2 imm) :=
  rowB _ _ _ _ _

theorem bgeu (rs1 rs2 : Reg) (imm : Word) :
    Statement (.bgeu rs1 rs2 imm) :=
  rowB _ _ _ _ _

theorem lb (rd rs1 : Reg) (imm : Word) :
    Statement (.lb rd rs1 imm) :=
  rowI _ _ _ _ _

theorem lh (rd rs1 : Reg) (imm : Word) :
    Statement (.lh rd rs1 imm) :=
  rowI _ _ _ _ _

theorem lw (rd rs1 : Reg) (imm : Word) :
    Statement (.lw rd rs1 imm) :=
  rowI _ _ _ _ _

theorem lbu (rd rs1 : Reg) (imm : Word) :
    Statement (.lbu rd rs1 imm) :=
  rowI _ _ _ _ _

theorem lhu (rd rs1 : Reg) (imm : Word) :
    Statement (.lhu rd rs1 imm) :=
  rowI _ _ _ _ _

theorem sb (rs1 rs2 : Reg) (imm : Word) :
    Statement (.sb rs1 rs2 imm) :=
  rowS _ _ _ _ _

theorem sh (rs1 rs2 : Reg) (imm : Word) :
    Statement (.sh rs1 rs2 imm) :=
  rowS _ _ _ _ _

theorem sw (rs1 rs2 : Reg) (imm : Word) :
    Statement (.sw rs1 rs2 imm) :=
  rowS _ _ _ _ _

theorem addi (rd rs1 : Reg) (imm : Word) :
    Statement (.addi rd rs1 imm) :=
  rowI _ _ _ _ _

theorem slti (rd rs1 : Reg) (imm : Word) :
    Statement (.slti rd rs1 imm) :=
  rowI _ _ _ _ _

theorem sltiu (rd rs1 : Reg) (imm : Word) :
    Statement (.sltiu rd rs1 imm) :=
  rowI _ _ _ _ _

theorem xori (rd rs1 : Reg) (imm : Word) :
    Statement (.xori rd rs1 imm) :=
  rowI _ _ _ _ _

theorem ori (rd rs1 : Reg) (imm : Word) :
    Statement (.ori rd rs1 imm) :=
  rowI _ _ _ _ _

theorem andi (rd rs1 : Reg) (imm : Word) :
    Statement (.andi rd rs1 imm) :=
  rowI _ _ _ _ _

theorem slli (rd rs1 : Reg) (shamt : BitVec 5) :
    Statement (.slli rd rs1 shamt) :=
  rowR _ _ _ _ _ _

theorem srli (rd rs1 : Reg) (shamt : BitVec 5) :
    Statement (.srli rd rs1 shamt) :=
  rowR _ _ _ _ _ _

theorem srai (rd rs1 : Reg) (shamt : BitVec 5) :
    Statement (.srai rd rs1 shamt) :=
  rowR _ _ _ _ _ _

theorem add (rd rs1 rs2 : Reg) :
    Statement (.add rd rs1 rs2) :=
  rowR _ _ _ _ _ _

theorem sub (rd rs1 rs2 : Reg) :
    Statement (.sub rd rs1 rs2) :=
  rowR _ _ _ _ _ _

theorem sll (rd rs1 rs2 : Reg) :
    Statement (.sll rd rs1 rs2) :=
  rowR _ _ _ _ _ _

theorem slt (rd rs1 rs2 : Reg) :
    Statement (.slt rd rs1 rs2) :=
  rowR _ _ _ _ _ _

theorem sltu (rd rs1 rs2 : Reg) :
    Statement (.sltu rd rs1 rs2) :=
  rowR _ _ _ _ _ _

theorem xor_ (rd rs1 rs2 : Reg) :
    Statement (.xor_ rd rs1 rs2) :=
  rowR _ _ _ _ _ _

theorem srl (rd rs1 rs2 : Reg) :
    Statement (.srl rd rs1 rs2) :=
  rowR _ _ _ _ _ _

theorem sra (rd rs1 rs2 : Reg) :
    Statement (.sra rd rs1 rs2) :=
  rowR _ _ _ _ _ _

theorem or_ (rd rs1 rs2 : Reg) :
    Statement (.or_ rd rs1 rs2) :=
  rowR _ _ _ _ _ _

theorem and_ (rd rs1 rs2 : Reg) :
    Statement (.and_ rd rs1 rs2) :=
  rowR _ _ _ _ _ _

theorem fence (fm pred succ : BitVec 4) (rs1 rd : Reg) :
    Statement (.fence fm pred succ rs1 rd) :=
  rowI _ _ _ _ _

theorem fencei (rd rs1 : Reg) (imm : Word) :
    Statement (.fencei rd rs1 imm) :=
  rowI _ _ _ _ _

theorem ecall :
    Statement (.ecall) := by
  unfold Statement OpcodeRow.matches; decide

theorem ebreak :
    Statement (.ebreak) := by
  unfold Statement OpcodeRow.matches; decide

theorem csrrw (rd rs1 : Reg) (csrno : CsrIdx) :
    Statement (.csrrw rd rs1 csrno) :=
  rowI _ _ _ _ _

theorem csrrs (rd rs1 : Reg) (csrno : CsrIdx) :
    Statement (.csrrs rd rs1 csrno) :=
  rowI _ _ _ _ _

theorem csrrc (rd rs1 : Reg) (csrno : CsrIdx) :
    Statement (.csrrc rd rs1 csrno) :=
  rowI _ _ _ _ _

theorem csrrwi (rd : Reg) (uimm : BitVec 5) (csrno : CsrIdx) :
    Statement (.csrrwi rd uimm csrno) :=
  rowI _ _ _ _ _

theorem csrrsi (rd : Reg) (uimm : BitVec 5) (csrno : CsrIdx) :
    Statement (.csrrsi rd uimm csrno) :=
  rowI _ _ _ _ _

theorem csrrci (rd : Reg) (uimm : BitVec 5) (csrno : CsrIdx) :
    Statement (.csrrci rd uimm csrno) :=
  rowI _ _ _ _ _

end Sys2Proof.Laws.EncodesToItsRow
end

