-- ==== Sys2Proof/Laws/Step.lean ====
section
/-! SUPPORT. Inversion lemmas of the fetch, of a failing instruction and of a run. -/

set_option Elab.async false -- one proof at a time: each waiting proof would hold a thread's stack

namespace Sys2Proof.Machine

/-- What a successful fetch says: the word is in bounds and decodes. -/
theorem fetchDecode_ok {s : State} {i : Instr} (h : fetchDecode s = .ok i) :
    s.mem.InBounds s.pc 4 ∧ decode (fetchWord s) = some i := by
  unfold fetchDecode at h
  split at h
  · rename_i hb
    split at h
    · rename_i hd; cases h; exact ⟨hb, hd⟩
    · cases h
  · cases h

/-- A word in bounds that decodes is what the fetch answers. -/
theorem fetchDecode_of {s : State} {i : Instr} (hb : s.mem.InBounds s.pc 4)
    (hd : decode (fetchWord s) = some i) : fetchDecode s = .ok i := by
  unfold fetchDecode
  rw [if_pos hb, hd]

/-- The two ways an instruction fails: it has no semantics, or its data access is out of bounds. -/
theorem exec_fault {i : Instr} {s : State} {f : Fault} (h : exec i s = .fault f) :
    (f = .unsupportedInstruction i ∧ isUnsupported i = true) ∨
    ∃ a n, dataAccess i s = some (a, n) ∧ ¬ s.mem.InBounds a n ∧ f = .outOfBoundsAccess a n := by
  cases i with
  | fence fm pred succ rs1 rd | fencei rd rs1 imm | ecall | ebreak =>
    cases h; exact .inl ⟨rfl, rfl⟩
  | lb rd rs1 imm | lh rd rs1 imm | lw rd rs1 imm | lbu rd rs1 imm | lhu rd rs1 imm
  | sb rs1 rs2 imm | sh rs1 rs2 imm | sw rs1 rs2 imm =>
    simp only [exec, execLb, execLh, execLw, execLbu, execLhu, execSb, execSh, execSw, loadReg,
      storeReg] at h
    split at h
    · cases h
    · rename_i hb; cases h; exact .inr ⟨_, _, rfl, hb, rfl⟩
  | _ => cases h

/-- An instruction whose data access is out of bounds fails. -/
theorem exec_outOfBounds {i : Instr} {s : State} {a : Word} {n : Nat}
    (hd : dataAccess i s = some (a, n)) (hb : ¬ s.mem.InBounds a n) :
    exec i s = .fault (.outOfBoundsAccess a n) := by
  cases i with
  | lb rd rs1 imm | lh rd rs1 imm | lw rd rs1 imm | lbu rd rs1 imm | lhu rd rs1 imm
  | sb rs1 rs2 imm | sh rs1 rs2 imm | sw rs1 rs2 imm => cases hd; exact if_neg hb
  | _ => cases hd

/-- No instruction is refused. -/
theorem exec_not_refused {i : Instr} {s : State} {r : Refusal} : exec i s ≠ .refused r := by
  intro h
  cases i with
  | lb rd rs1 imm | lh rd rs1 imm | lw rd rs1 imm | lbu rd rs1 imm | lhu rd rs1 imm
  | sb rs1 rs2 imm | sh rs1 rs2 imm | sw rs1 rs2 imm =>
    simp only [exec, execLb, execLh, execLw, execLbu, execLhu, execSb, execSh, execSw, loadReg,
      storeReg] at h
    split at h <;> cases h
  | _ => cases h

/-- The byte-level decoder reads the table's word. -/
theorem decodeTableWord_eq (nbits w : Nat) :
    decodeTableWord nbits w = decode (tableWord nbits w) := by
  have hb : bytesOfWord 4 (tableWord nbits w) =
      [(tableWord nbits w).extractLsb' 0 8, (tableWord nbits w).extractLsb' 8 8,
       (tableWord nbits w).extractLsb' 16 8, (tableWord nbits w).extractLsb' 24 8] := rfl
  unfold decodeTableWord
  rw [hb]
  simp only [decodeBytes, wordOfBytes_extract]
  cases decode (tableWord nbits w) <;> rfl

/-- A run of `k + 1` steps is one step and a run of `k`. -/
theorem run_succ {k : Nat} {s t : State} (h : core.run (k + 1) s = .next t) :
    ∃ u, step s = .next u ∧ core.run k u = .next t := by
  simp only [Host.Core.run] at h
  split at h
  · rename_i u hu; exact ⟨u, hu, h⟩
  · cases h
  · cases h

end Sys2Proof.Machine
end

