-- ==== Sys2Proof/Tests/Slice0.lean ====
section
/-! SUPPORT. Tests and witnesses. The expected values of the tests are those of the rows of
95_test_vectors.md, which that file computes from the rules by hand. -/

set_option Elab.async false -- one proof at a time: each waiting proof would hold a thread's stack

namespace Sys2Proof.Tests

open Sys2Proof Sys2Proof.Machine

/-! ## Helpers -/

/-- Reset with registers and bytes set, an instruction stored at `pc`, and the pc there. -/
def place (pc w : Word) (regs : List (Reg × Word)) (bytes : List (Nat × Byte)) : State :=
  let s := regs.foldl (fun s p => s.setX p.1 p.2) State.reset
  let m := bytes.foldl (fun m p => m.setByte p.1 p.2) s.mem
  { s with pc := pc, mem := m.write pc.toNat 4 w }

/-- The convention of 95_test_vectors.md: the instruction at `A = 0x100`. -/
def at100 (w : Word) (regs : List (Reg × Word)) : State := place 0x100 w regs []

/-- The state after a successful step. -/
def after (s : State) : Option State :=
  match step s with
  | .next t => some t
  | _ => none

/-- Register `r` and the pc after a step at 0x100. -/
def regPc (w : Word) (regs : List (Reg × Word)) (r : Reg) : Option (Word × Word) :=
  (after (at100 w regs)).map fun t => (t.x r, t.pc)

/-- The pc after a step at 0x100. -/
def pcOf (w : Word) (regs : List (Reg × Word)) : Option Word :=
  (after (at100 w regs)).map (·.pc)

/-- The memory preset of table L2.6. -/
def loadBytes : List (Nat × Byte) :=
  [(0x200, 0xEF), (0x201, 0xBE), (0x202, 0xAD), (0x203, 0xDE), (0x204, 0x80),
   (0xFFC, 0x11), (0xFFD, 0x22), (0xFFE, 0x33), (0xFFF, 0x44)]

/-- Register `r` and the pc after a load at 0x100 over that preset. -/
def loaded (w x1 : Word) (r : Reg) : Option (Word × Word) :=
  (after (place 0x100 w [(1, x1)] loadBytes)).map fun t => (t.x r, t.pc)

/-- Some bytes of memory after a step at 0x100. -/
def bytesAfter (w : Word) (regs : List (Reg × Word)) (addrs : List Nat) : Option (List Byte) :=
  (after (at100 w regs)).map fun t => addrs.map t.mem.byte

/-- A state at 0x100 with one CSR set. -/
def csrState (w : Word) (regs : List (Reg × Word)) (c : CsrIdx) (v : Word) : State :=
  (at100 w regs).csrWrite c v

/-- Register `r`, CSR `c` and the pc after a step. -/
def csrOf (s : State) (r : Reg) (c : CsrIdx) : Option (Word × Word × Word) :=
  (after s).map fun t => (t.x r, t.csrRead c, t.pc)

/-- The failure of a step. -/
def failure (s : State) : Option Fault :=
  match step s with
  | .fault f => some f
  | _ => none

/-- A fact about every entry of a list, by evaluating it at each. -/
theorem forall_of_all {α : Type} {l : List α} {p : α → Prop} [DecidablePred p]
    (h : l.all (fun a => decide (p a)) = true) : ∀ a ∈ l, p a := by
  simpa using h

/-! ## WellFormed refuses ill-formed terms: one for each check -/

theorem test_wf_i_too_big : (Instr.addi 1 2 0x800#32).wellFormed = false := by decide
theorem test_wf_i_too_small : (Instr.lw 1 2 0xFFFFF7FF#32).wellFormed = false := by decide
theorem test_wf_s_too_big : (Instr.sw 1 2 0x800#32).wellFormed = false := by decide
theorem test_wf_b_too_big : (Instr.beq 1 2 0x1000#32).wellFormed = false := by decide
theorem test_wf_b_too_small : (Instr.bne 1 2 0xFFFFEFFE#32).wellFormed = false := by decide
theorem test_wf_b_odd : (Instr.blt 1 2 3#32).wellFormed = false := by decide
theorem test_wf_u_low_bits : (Instr.lui 1 0x1001#32).wellFormed = false := by decide
theorem test_wf_j_too_big : (Instr.jal 1 0x100000#32).wellFormed = false := by decide
theorem test_wf_j_too_small : (Instr.jal 1 0xFFEFFFFE#32).wellFormed = false := by decide
theorem test_wf_j_odd : (Instr.jal 1 5#32).wellFormed = false := by decide

/-! ## Decoding: words written out from the encodings of the spec, every constructor -/

/-- L2.1, L2.3 and L2.4. -/
theorem test_decode_upper_and_jumps :
    decode 0x123452B7#32 = some (.lui 5 0x12345000#32) ∧
    decode 0xFFFFF297#32 = some (.auipc 5 0xFFFFF000#32) ∧
    decode 0xF01FF06F#32 = some (.jal 0 0xFFFFFF00#32) ∧
    decode 0x0010006F#32 = some (.jal 0 0x00000800#32) ∧
    decode 0xFFF100E7#32 = some (.jalr 1 2 0xFFFFFFFF#32) := by decide

/-- L2.2 and L2.5. -/
theorem test_decode_branches :
    decode 0x00208463#32 = some (.beq 1 2 8#32) ∧
    decode 0x000000E3#32 = some (.beq 0 0 0x800#32) ∧
    decode 0xFE209EE3#32 = some (.bne 1 2 0xFFFFFFFC#32) ∧
    decode 0x0020C863#32 = some (.blt 1 2 16#32) ∧
    decode 0x0020D863#32 = some (.bge 1 2 16#32) ∧
    decode 0x0020E863#32 = some (.bltu 1 2 16#32) ∧
    decode 0xF000F0E3#32 = some (.bgeu 1 0 0xFFFFFF00#32) := by decide

/-- L2.6. -/
theorem test_decode_loads :
    decode 0x00408183#32 = some (.lb 3 1 4#32) ∧
    decode 0x00209183#32 = some (.lh 3 1 2#32) ∧
    decode 0xFFC0A183#32 = some (.lw 3 1 0xFFFFFFFC#32) ∧
    decode 0x0010C183#32 = some (.lbu 3 1 1#32) ∧
    decode 0x0020D183#32 = some (.lhu 3 1 2#32) := by decide

/-- L2.2 and L2.7. -/
theorem test_decode_stores :
    decode 0x00208023#32 = some (.sb 1 2 0#32) ∧
    decode 0x002090A3#32 = some (.sh 1 2 1#32) ∧
    decode 0xFE20AE23#32 = some (.sw 1 2 0xFFFFFFFC#32) ∧
    decode 0x7E20AFA3#32 = some (.sw 1 2 0x7FF#32) ∧
    decode 0x8020A023#32 = some (.sw 1 2 0xFFFFF800#32) := by decide

/-- L2.1 and L2.8. -/
theorem test_decode_alu_immediate :
    decode 0xFFF08093#32 = some (.addi 1 1 0xFFFFFFFF#32) ∧
    decode 0x0010A193#32 = some (.slti 3 1 1#32) ∧
    decode 0xFFF0B193#32 = some (.sltiu 3 1 0xFFFFFFFF#32) ∧
    decode 0x7FF0C193#32 = some (.xori 3 1 0x7FF#32) ∧
    decode 0x8000E193#32 = some (.ori 3 1 0xFFFFF800#32) ∧
    decode 0x7FF0F193#32 = some (.andi 3 1 0x7FF#32) ∧
    decode 0x01F11093#32 = some (.slli 1 2 31) ∧
    decode 0x00115093#32 = some (.srli 1 2 1) ∧
    decode 0x4040D193#32 = some (.srai 3 1 4) := by decide

/-- L2.9. -/
theorem test_decode_alu_register :
    decode 0x002081B3#32 = some (.add 3 1 2) ∧
    decode 0x402081B3#32 = some (.sub 3 1 2) ∧
    decode 0x002091B3#32 = some (.sll 3 1 2) ∧
    decode 0x0020A1B3#32 = some (.slt 3 1 2) ∧
    decode 0x002031B3#32 = some (.sltu 3 0 2) ∧
    decode 0x0020C1B3#32 = some (.xor_ 3 1 2) ∧
    decode 0x0020D1B3#32 = some (.srl 3 1 2) ∧
    decode 0x4020D1B3#32 = some (.sra 3 1 2) ∧
    decode 0x0020E1B3#32 = some (.or_ 3 1 2) ∧
    decode 0x0020F1B3#32 = some (.and_ 3 1 2) := by decide

/-- L2.1, with the fields of R336 written out. -/
theorem test_decode_fence_and_system :
    decode 0x0FF0000F#32 = some (.fence 0x0 0xF 0xF 0 0) ∧
    decode 0x8330000F#32 = some (.fence 0x8 0x3 0x3 0 0) ∧
    decode 0xFFFF8F8F#32 = some (.fence 0xF 0xF 0xF 31 31) ∧
    decode 0x0000100F#32 = some (.fencei 0 0 0#32) ∧
    decode 0xFFFF9F8F#32 = some (.fencei 31 31 0xFFFFFFFF#32) ∧
    decode 0x00000073#32 = some .ecall ∧
    decode 0x00100073#32 = some .ebreak := by decide

/-- L2.1 and L2.11. -/
theorem test_decode_csr :
    decode 0x34009073#32 = some (.csrrw 0 1 0x340) ∧
    decode 0xFFF022F3#32 = some (.csrrs 5 0 0xFFF) ∧
    decode 0x3400B1F3#32 = some (.csrrc 3 1 0x340) ∧
    decode 0x340FD1F3#32 = some (.csrrwi 3 31 0x340) ∧
    decode 0x3402E1F3#32 = some (.csrrsi 3 5 0x340) ∧
    decode 0xC00FF0F3#32 = some (.csrrci 1 31 0xC00) := by decide

/-- The `none` rows of L2.1. -/
theorem test_decode_none_opcodes :
    ∀ w ∈ [0x00000000#32, 0xFFFFFFFF#32, 0x00000001#32, 0x0000000B#32, 0x0000002F#32,
      0x00002007#32, 0x003110E7#32, 0x0020A463#32, 0x0020B463#32], decode w = none :=
  forall_of_all (by decide)

theorem test_decode_none_alu :
    ∀ w ∈ [0x022081B3#32, 0x202081B3#32, 0x4020C1B3#32, 0x02011093#32, 0x40011093#32,
      0x6040D193#32], decode w = none :=
  forall_of_all (by decide)

theorem test_decode_none_memory :
    ∀ w ∈ [0x0000B183#32, 0x0000E183#32, 0x0000F183#32, 0x0020B023#32, 0x0020C023#32,
      0xFFFFF00F#32, 0x0000200F#32], decode w = none :=
  forall_of_all (by decide)

theorem test_decode_none_system :
    ∀ w ∈ [0x00000473#32, 0x00200073#32, 0x30200073#32, 0x10500073#32, 0x12000073#32,
      0x00004073#32], decode w = none :=
  forall_of_all (by decide)

/-- The bytes column of 95_test_vectors.md P1: `addi x1, x0, 5`. -/
theorem test_decodeBytes :
    decodeBytes [0x93#8, 0x00#8, 0x50#8, 0x00#8, 0x13#8] = .ok (.addi 1 0 5#32, [0x13#8]) := rfl
theorem test_decodeBytes_short :
    decodeBytes [0x93#8, 0x00#8, 0x50#8] = .error .tooShort := rfl
theorem test_decodeTableWord : decodeTableWord 32 0x00500093 = some (.addi 1 0 5#32) := by decide

/-! ## One step of each instruction -/

/-- L2.3. -/
theorem test_lui : regPc 0x123452B7 [] 5 = some (0x12345000#32, 0x104#32) ∧
    regPc 0x12345037 [] 0 = some (0#32, 0x104#32) := by decide
theorem test_auipc : regPc 0xFFFFF297 [] 5 = some (0xFFFFF100#32, 0x104#32) ∧
    regPc 0x80000297 [] 5 = some (0x80000100#32, 0x104#32) := by decide

/-- L2.4. -/
theorem test_jal : regPc 0x008000EF [] 1 = some (0x104#32, 0x108#32) ∧
    regPc 0xE01FF06F [] 0 = some (0#32, 0xFFFFFF00#32) := by decide
theorem test_jalr : regPc 0x003100E7 [(2, 0x200#32)] 1 = some (0x104#32, 0x202#32) ∧
    regPc 0x00410167 [(2, 0x200#32)] 2 = some (0x104#32, 0x204#32) ∧
    regPc 0xFFF100E7 [(2, 0x200#32)] 1 = some (0x104#32, 0x1FE#32) := by decide

/-- L2.5. -/
theorem test_beq : pcOf 0x00208463 [(1, 5#32), (2, 5#32)] = some 0x108#32 ∧
    pcOf 0x00208463 [(1, 5#32), (2, 6#32)] = some 0x104#32 ∧
    pcOf 0x80000063 [] = some 0xFFFFF100#32 := by decide
theorem test_bne : pcOf 0xFE209EE3 [(1, 5#32), (2, 6#32)] = some 0xFC#32 ∧
    pcOf 0xFE109EE3 [(1, 5#32)] = some 0x104#32 := by decide
theorem test_blt : pcOf 0x0020C863 [(1, 0x80000000#32), (2, 0x7FFFFFFF#32)] = some 0x110#32 ∧
    pcOf 0x0010C863 [(1, 7#32)] = some 0x104#32 := by decide
theorem test_bge : pcOf 0x0020D863 [(1, 0xFFFFFFFF#32), (2, 1#32)] = some 0x104#32 ∧
    pcOf 0x0010D863 [(1, 7#32)] = some 0x110#32 := by decide
theorem test_bltu : pcOf 0x0020E863 [(1, 0xFFFFFFFF#32), (2, 1#32)] = some 0x104#32 ∧
    pcOf 0x00206863 [(2, 1#32)] = some 0x110#32 := by decide
theorem test_bgeu : pcOf 0x0020F863 [(1, 0xFFFFFFFF#32), (2, 1#32)] = some 0x110#32 ∧
    pcOf 0xF000F0E3 [] = some 0#32 := by decide

/-- L2.6. -/
theorem test_lb : loaded 0x00008183 0x200 3 = some (0xFFFFFFEF#32, 0x104#32) ∧
    loaded 0x00408183 0x200 3 = some (0xFFFFFF80#32, 0x104#32) := by decide
theorem test_lh : loaded 0x00209183 0x200 3 = some (0xFFFFDEAD#32, 0x104#32) ∧
    loaded 0x00109183 0x200 3 = some (0xFFFFADBE#32, 0x104#32) := by decide
theorem test_lw : loaded 0x0010A183 0x200 3 = some (0x80DEADBE#32, 0x104#32) ∧
    loaded 0x0000A083 0x200 1 = some (0xDEADBEEF#32, 0x104#32) ∧
    loaded 0x0000A003 0x200 0 = some (0#32, 0x104#32) := by decide
theorem test_lbu : loaded 0x0000C183 0x200 3 = some (0xEF#32, 0x104#32) ∧
    loaded 0x0000C183 0xFFF 3 = some (0x44#32, 0x104#32) := by decide
theorem test_lhu : loaded 0x0020D183 0x200 3 = some (0xDEAD#32, 0x104#32) := by decide
theorem test_load_fails :
    failure (at100 0x0010A183 [(1, 0xFFC#32)]) = some (.outOfBoundsAccess 0xFFD#32 4) ∧
    failure (at100 0x0010C183 [(1, 0xFFF#32)]) = some (.outOfBoundsAccess 0x1000#32 1) ∧
    failure (at100 0xFFC02183 []) = some (.outOfBoundsAccess 0xFFFFFFFC#32 4) ∧
    failure (at100 0x0000A003 [(1, 0x1000#32)]) = some (.outOfBoundsAccess 0x1000#32 4) := by decide

/-- L2.7. -/
theorem test_sb : bytesAfter 0x00208023 [(1, 0x200#32), (2, 0x12345678#32)]
    [0x1FF, 0x200, 0x201] = some [0#8, 0x78#8, 0#8] := by decide
theorem test_sh : bytesAfter 0x002090A3 [(1, 0x200#32), (2, 0x12345678#32)]
    [0x200, 0x201, 0x202, 0x203] = some [0#8, 0x78#8, 0x56#8, 0#8] := by decide
theorem test_sw : bytesAfter 0xFE20AE23 [(1, 0x204#32), (2, 0x12345678#32)]
    [0x200, 0x201, 0x202, 0x203, 0x204] = some [0x78#8, 0x56#8, 0x34#8, 0x12#8, 0#8] := by decide
theorem test_sw_zeros : (after (place 0x100 0x0000A023 [(1, 0x200#32)]
    [(0x200, 0xFF), (0x201, 0xFF), (0x202, 0xFF), (0x203, 0xFF)])).map
      (fun t => (t.mem.byte 0x200, t.mem.byte 0x203, t.mem.wf)) = some (0#8, 0#8, true) := by decide
theorem test_store_fails :
    failure (at100 0x00209023 [(1, 0xFFF#32), (2, 0x12345678#32)]) =
      some (.outOfBoundsAccess 0xFFF#32 2) ∧
    failure (at100 0x00208023 [(1, 0x80000000#32), (2, 0x12345678#32)]) =
      some (.outOfBoundsAccess 0x80000000#32 1) := by decide

/-- L2.8. -/
theorem test_addi : regPc 0x00108093 [(1, 0x7FFFFFFF#32)] 1 = some (0x80000000#32, 0x104#32) ∧
    regPc 0x00500013 [] 0 = some (0#32, 0x104#32) := by decide
theorem test_slti : regPc 0xFFF0A193 [(1, 0xFFFFFFFE#32)] 3 = some (1#32, 0x104#32) ∧
    regPc 0x0010A193 [(1, 0x7FFFFFFF#32)] 3 = some (0#32, 0x104#32) := by decide
theorem test_sltiu : regPc 0xFFF0B193 [(1, 5#32)] 3 = some (1#32, 0x104#32) ∧
    regPc 0xFFF0B193 [(1, 0xFFFFFFFF#32)] 3 = some (0#32, 0x104#32) := by decide
theorem test_xori : regPc 0x7FF0C193 [(1, 0xFFFFFFFF#32)] 3 = some (0xFFFFF800#32, 0x104#32) := by
  decide
theorem test_ori : regPc 0x0F00E193 [(1, 0x0F000000#32)] 3 = some (0x0F0000F0#32, 0x104#32) := by
  decide
theorem test_andi : regPc 0x7FF0F193 [(1, 0xFFFFFFFF#32)] 3 = some (0x7FF#32, 0x104#32) := by decide
theorem test_slli : regPc 0x00409193 [(1, 0x80000001#32)] 3 = some (0x10#32, 0x104#32) ∧
    regPc 0x01F09193 [(1, 3#32)] 3 = some (0x80000000#32, 0x104#32) := by decide
theorem test_srli : regPc 0x0040D193 [(1, 0x80000000#32)] 3 = some (0x08000000#32, 0x104#32) ∧
    regPc 0x01F0D193 [(1, 0x80000000#32)] 3 = some (1#32, 0x104#32) := by decide
theorem test_srai : regPc 0x4040D193 [(1, 0x80000000#32)] 3 = some (0xF8000000#32, 0x104#32) ∧
    regPc 0x41F0D193 [(1, 0x7FFFFFFF#32)] 3 = some (0#32, 0x104#32) := by decide

/-- L2.9. -/
theorem test_add : regPc 0x002081B3 [(1, 0x7FFFFFFF#32), (2, 1#32)] 3 =
    some (0x80000000#32, 0x104#32) ∧
    regPc 0x001080B3 [(1, 0x40000000#32)] 1 = some (0x80000000#32, 0x104#32) := by decide
theorem test_sub : regPc 0x402081B3 [(2, 1#32)] 3 = some (0xFFFFFFFF#32, 0x104#32) ∧
    regPc 0x402081B3 [(1, 0x80000000#32), (2, 1#32)] 3 = some (0x7FFFFFFF#32, 0x104#32) := by decide
theorem test_sll : regPc 0x002091B3 [(1, 1#32), (2, 33#32)] 3 = some (2#32, 0x104#32) ∧
    regPc 0x002091B3 [(1, 1#32), (2, 32#32)] 3 = some (1#32, 0x104#32) := by decide
theorem test_slt : regPc 0x0020A1B3 [(1, 0xFFFFFFFF#32)] 3 = some (1#32, 0x104#32) ∧
    regPc 0x0020A1B3 [(2, 0xFFFFFFFF#32)] 3 = some (0#32, 0x104#32) := by decide
theorem test_sltu : regPc 0x0020B1B3 [(1, 0xFFFFFFFF#32)] 3 = some (0#32, 0x104#32) ∧
    regPc 0x0020B1B3 [(2, 0xFFFFFFFF#32)] 3 = some (1#32, 0x104#32) := by decide
theorem test_xor : regPc 0x0020C1B3 [(1, 0xFF00FF00#32), (2, 0x0FF00FF0#32)] 3 =
    some (0xF0F0F0F0#32, 0x104#32) := by decide
theorem test_srl : regPc 0x0020D1B3 [(1, 0x80000000#32), (2, 31#32)] 3 = some (1#32, 0x104#32) ∧
    regPc 0x0020D1B3 [(1, 0x80000000#32), (2, 36#32)] 3 = some (0x08000000#32, 0x104#32) := by
  decide
theorem test_sra : regPc 0x4020D1B3 [(1, 0x80000000#32), (2, 36#32)] 3 =
    some (0xF8000000#32, 0x104#32) ∧
    regPc 0x4020D1B3 [(1, 0x40000000#32), (2, 30#32)] 3 = some (1#32, 0x104#32) := by decide
theorem test_or : regPc 0x0020E1B3 [(1, 0xF0#32), (2, 0x0F#32)] 3 = some (0xFF#32, 0x104#32) := by
  decide
theorem test_and : regPc 0x0020F1B3 [(1, 0xF0#32), (2, 0x3C#32)] 3 = some (0x30#32, 0x104#32) := by
  decide

/-- L2.10. -/
theorem test_fence : hostStep (at100 0x0FF0000F [(1, 7#32)]) =
    (at100 0x0FF0000F [(1, 7#32)], .failed (.unsupportedInstruction (.fence 0 15 15 0 0))) := rfl
theorem test_fencei : failure (at100 0x0000100F []) =
    some (.unsupportedInstruction (.fencei 0 0 0#32)) := by decide
theorem test_ecall : failure (at100 0x00000073 []) = some (.unsupportedInstruction .ecall) := by
  decide
theorem test_ebreak : failure (at100 0x00100073 []) = some (.unsupportedInstruction .ebreak) := by
  decide

/-- L2.11. -/
theorem test_csrrw : csrOf (csrState 0x340090F3 [(1, 0xCAFE#32)] 0x340 0x1234#32) 1 0x340 =
    some (0x1234#32, 0xCAFE#32, 0x104#32) ∧
    csrOf (csrState 0x34009073 [(1, 0xCAFE#32)] 0x340 0x1234#32) 0 0x340 =
    some (0#32, 0xCAFE#32, 0x104#32) := by decide
theorem test_csrrs : csrOf (csrState 0x3400A1F3 [(1, 0x0F#32)] 0x340 0x1230#32) 3 0x340 =
    some (0x1230#32, 0x123F#32, 0x104#32) ∧
    csrOf (at100 0xFFF0A1F3 [(1, 1#32)]) 3 0xFFF = some (0#32, 1#32, 0x104#32) := by decide
theorem test_csrrc : csrOf (csrState 0x3400B1F3 [(1, 0x0F#32)] 0x340 0x123F#32) 3 0x340 =
    some (0x123F#32, 0x1230#32, 0x104#32) := by decide
theorem test_csrrwi : csrOf (csrState 0x340FD1F3 [] 0x340 0x1234#32) 3 0x340 =
    some (0x1234#32, 0x1F#32, 0x104#32) := by decide
theorem test_csrrsi : csrOf (csrState 0x3402E1F3 [] 0x340 0x1230#32) 3 0x340 =
    some (0x1230#32, 0x1235#32, 0x104#32) := by decide
theorem test_csrrci : csrOf (csrState 0x3402F1F3 [] 0x340 0x1237#32) 3 0x340 =
    some (0x1237#32, 0x1232#32, 0x104#32) := by decide

/-! ## Fetch, decode and host operations -/

/-- L2.12. -/
theorem test_fetch_fails :
    failure (State.reset.setPc 0x1000) = some (.outOfBoundsAccess 0x1000#32 4) ∧
    failure (State.reset.setPc 0xFFE) = some (.outOfBoundsAccess 0xFFE#32 4) ∧
    failure (State.reset.setPc 0xFFFFFFFC) = some (.outOfBoundsAccess 0xFFFFFFFC#32 4) := by decide
theorem test_decode_fails :
    failure (at100 0x00000000 []) = some (.invalidEncoding 0#32 0x100#32) ∧
    failure (at100 0x022081B3 []) = some (.invalidEncoding 0x022081B3#32 0x100#32) ∧
    failure (at100 0x30200073 []) = some (.invalidEncoding 0x30200073#32 0x100#32) := by decide
theorem test_unaligned_fetch :
    (after (place 0x102 0x00500093 [] [])).map (fun t => (t.x 1, t.pc)) =
      some (5#32, 0x106#32) := by decide

/-- L1.8's corollary, and the first step after `withFetchWord`. -/
theorem test_reset_step : failure State.reset = some (.invalidEncoding 0#32 0#32) := by decide
theorem test_withFetchWord :
    (after (State.reset.withFetchWord 32 0x00500093)).map (fun t => (t.x 1, t.pc)) =
      some (5#32, 4#32) := by decide

/-- L1.9: load and step. -/
theorem test_load_step :
    (fun t => (t.2, t.1.x 1, t.1.pc)) (hostApply .step
      (hostApply (.load 0 [0x93#8, 0x00#8, 0x50#8, 0x00#8]) State.reset).1) =
      (.executed (.addi 1 0 5#32), 5#32, 4#32) := by decide

/-- L2.0. -/
theorem test_load_entry :
    (hostApply .step (hostApply (.load 0x10 [0x13#8, 0x00#8, 0x00#8, 0x00#8]) State.reset).1).2 =
      .failed (.invalidEncoding 0#32 0x10#32) := by decide
theorem test_load_refused : hostApply (.load 0 [1#8, 2#8, 3#8, 4#8, 5#8]) (State.create 4) =
    (State.create 4, .loadRefused) := rfl
theorem test_write_x0_discarded : hostApply (.writeReg 0 5) State.reset =
    (State.reset, .done) := rfl
theorem test_no_such_byte : (hostApply (.writeByte 0x1000 5) State.reset).2 = .noSuchByte ∧
    (hostApply (.writeByte 0xFFF 5) State.reset).2 = .done := by decide

/-! ## Witnesses: states and operands that meet the hypotheses of the obligations

One for each clause with hypotheses, at the edge of its range where it has one. -/

theorem witness_DecodeInvertsEncode :
    ∀ i ∈ [Instr.addi 1 2 2047#32, .lw 1 2 0xFFFFF800#32, .sw 1 2 2047#32, .sb 1 2 0xFFFFF800#32,
      .beq 1 2 4094#32, .bgeu 1 2 0xFFFFF000#32, .lui 31 0xFFFFF000#32, .jal 1 0x000FFFFE#32,
      .jal 0 0xFFF00000#32, .srai 1 2 31, .csrrci 1 31 0xFFF], i.wellFormed = true :=
  forall_of_all (by decide)

theorem witness_EncodeInvertsDecode : decode 0xFFFF8F8F#32 = some (.fence 0xF 0xF 0xF 31 31) := by
  decide

theorem witness_DecodeAgreesWithOpcodeTable :
    decode 0x4040D193#32 = some (.srai 3 1 4) ∧
    0x4040D193#32 &&& (rowOf (.srai 3 1 4)).mask = (rowOf (.srai 3 1 4)).pattern ∧
    decode 0x6040D193#32 = none := by decide

/-- The last address a word can be fetched from, and a word of each kind. -/
theorem witness_WordsOutsideTheMapAreInvalid_state :
    ∀ w ∈ [0#32, 0xFFFFFFFF#32, 0x00000001#32, 0x0000000B#32],
      (place 0xFFC w [] []).mem.InBounds (place 0xFFC w [] []).pc 4 ∧
      fetchWord (place 0xFFC w [] []) = w :=
  forall_of_all (by decide)

theorem witness_WordsOutsideTheMapAreInvalid_words :
    (0x00000001#32).extractLsb' 0 2 ≠ 0b11#2 ∧
    ∀ w ∈ [0x0000000B#32, 0x003110E7#32, 0x0020A463#32, 0x0000E183#32, 0x0020C023#32,
      0x40011093#32, 0x6040D193#32, 0x022081B3#32, 0x4020C1B3#32, 0x0000200F#32, 0x00004073#32,
      0x30200073#32], OutsideOpcodeMap w := by
  unfold OutsideOpcodeMap
  exact ⟨by decide, forall_of_all (by decide)⟩

/-- The first address a fetch fails at, the last one it reads at, with and without an
instruction there. -/
theorem witness_StepRunsTheDecodedInstruction :
    ¬ (State.reset.setPc 0xFFD#32).pc.toNat + 4 ≤ (State.reset.setPc 0xFFD#32).mem.size ∧
    ((place 0xFFC 0x00004073 [] []).pc.toNat + 4 ≤ (place 0xFFC 0x00004073 [] []).mem.size ∧
      decode (fetchWord (place 0xFFC 0x00004073 [] [])) = none) ∧
    ((place 0xFFC 0x00500093 [] []).pc.toNat + 4 ≤ (place 0xFFC 0x00500093 [] []).mem.size ∧
      decode (fetchWord (place 0xFFC 0x00500093 [] [])) = some (.addi 1 0 5#32)) := by decide

theorem witness_FetchIsLittleEndian :
    (fetchWord (at100 0x00500093 [])).extractLsb' 0 8 = 0x93#8 ∧
    (fetchWord (at100 0x00500093 [])).extractLsb' (8 * 2) 8 = 0x50#8 := by decide

/-- A step of each failure. -/
theorem witness_FailuresAriseExactlyWhenStated :
    failure (at100 0x022081B3 []) = some (.invalidEncoding 0x022081B3#32 0x100#32) ∧
    failure (at100 0x00100073 []) = some (.unsupportedInstruction .ebreak) ∧
    failure (State.reset.setPc 0xFFD) = some (.outOfBoundsAccess 0xFFD#32 4) ∧
    failure (at100 0x0010C183 [(1, 0xFFF#32)]) = some (.outOfBoundsAccess 0x1000#32 1) := by decide

/-- A load of the last word, and an instruction with no data access. -/
theorem witness_StepCompletesWhenAccessesAreInBounds :
    let s := at100 0x0000A183 [(1, 0xFFC#32)]
    (s.mem.InBounds s.pc 4 ∧ decode (fetchWord s) = some (.lw 3 1 0#32) ∧
      isUnsupported (.lw 3 1 0#32) = false ∧
      dataAccess (.lw 3 1 0#32) s = some (0xFFC#32, 4) ∧ s.mem.InBounds 0xFFC#32 4) ∧
    dataAccess (.addi 1 0 5#32) State.reset = none := by decide

theorem witness_PlacedWordIsFetched :
    State.reset.mem.InBounds State.reset.pc 4 ∧
    (State.reset.setPc 0xFFC#32).mem.InBounds (State.reset.setPc 0xFFC#32).pc 4 ∧
    decodeTableWord 32 0x00500093 = some (.addi 1 0 5#32) := by decide

/-- A state with the invariant whose step succeeds. -/
theorem witness_StepKeepsInvariant :
    (at100 0x00108093 []).Inv ∧ ∃ t, step (at100 0x00108093 []) = .next t := by
  refine ⟨by decide, ?_⟩
  exact ⟨_, rfl⟩

theorem witness_HostOperationsKeepInvariant :
    State.reset.Inv ∧ (State.create 4).Inv ∧ (hostApply (.load 2 [1#8, 2#8, 3#8, 4#8])
      (State.create 4)).2 = .done := by decide

theorem witness_RunsKeepInvariantAndMemorySize :
    (at100 0x00108093 []).Inv ∧ ∃ t, core.run 1 (at100 0x00108093 []) = .next t := by
  refine ⟨by decide, ?_⟩
  simp only [Host.Core.run]
  exact ⟨_, rfl⟩

theorem witness_StepKeepsPcEven :
    (at100 0x003100E7 []).pcEven ∧ ∃ t, step (at100 0x003100E7 []) = .next t := by
  refine ⟨by decide, ?_⟩
  exact ⟨_, rfl⟩

theorem witness_WritesToRegisterZeroAreDiscarded :
    destReg (.add 0 1 2) = some 0#5 ∧ ∃ t, exec (.add 0 1 2) State.reset = .next t :=
  ⟨rfl, _, rfl⟩

theorem witness_OnlyTheDestinationRegisterChanges :
    destReg (.csrrw 1 2 0x340) ≠ some 2#5 ∧ destReg (.sw 1 2 0#32) ≠ some 1#5 ∧
    ∃ t, exec (.csrrw 1 2 0x340) State.reset = .next t :=
  ⟨by decide, by decide, _, rfl⟩

theorem witness_OnlyStoresChangeMemory :
    isStore (.lb 1 0 0xFFF#32) = false ∧ ∃ t, exec (.lb 1 0 0xFFF#32) State.reset = .next t :=
  ⟨rfl, _, rfl⟩

/-- An instruction that succeeds and one that fails. -/
theorem witness_OnlyCsrInstructionsTouchTheCsrFile :
    isCsr (.jalr 1 2 3#32) = false ∧ (∃ t, exec (.jalr 1 2 3#32) State.reset = .next t) ∧
    isCsr (.lb 1 0 0x1000#32) = false ∧
    ∃ f, exec (.lb 1 0 0x1000#32) State.reset = .fault f :=
  ⟨rfl, ⟨_, rfl⟩, rfl, _, rfl⟩

theorem witness_PcAfterEachInstruction :
    (∃ t, exec (.bltu 0 1 8#32) (State.reset.setX 1 1) = .next t) ∧
    (∃ t, exec (.bltu 1 0 8#32) (State.reset.setX 1 1) = .next t) ∧
    ∃ t, exec (.lui 1 0#32) State.reset = .next t :=
  ⟨⟨_, rfl⟩, ⟨_, rfl⟩, _, rfl⟩

/-- The first and last byte of a range, and the bytes on either side of it. -/
theorem witness_MemoryIsLittleEndianByteByByte :
    let m := State.reset.mem.write 0x101 2 0x1234BEEF#32
    m.byte 0x100 = 0#8 ∧ m.byte 0x101 = 0xEF#8 ∧ m.byte 0x102 = 0xBE#8 ∧ m.byte 0x103 = 0#8 ∧
    (m.read32 0x100).extractLsb' (8 * 3) 8 = 0#8 := by decide

/-- Each store at the last address it fits, which is odd for SB. -/
theorem witness_LoadReadsBackStore :
    (1#5 : Reg) ≠ 0#5 ∧ (∃ t, exec (.sw 0 2 0xFFC#32) State.reset = .next t) ∧
    (∃ t, exec (.sh 0 2 0xFFD#32) State.reset = .next t) ∧
    ∃ t, exec (.sb 0 2 0xFFF#32) State.reset = .next t :=
  ⟨by decide, ⟨_, rfl⟩, ⟨_, rfl⟩, _, rfl⟩

theorem witness_ByteLoadsSeeTheBytesOfAStoredWord :
    (∃ t, exec (.sw 0 2 0xFFC#32) State.reset = .next t) ∧
    (effAddr 0 0xFFF#32 State.reset).toNat = (effAddr 0 0xFFC#32 State.reset).toNat + 3 ∧
    (effAddr 0 0xFFC#32 State.reset).toNat = (effAddr 0 0xFFC#32 State.reset).toNat + 0 :=
  ⟨⟨_, rfl⟩, by decide, by decide⟩

/-- The stored word is EBREAK. -/
theorem witness_StoreIsSeenByTheNextFetch :
    (∃ t, exec (.sw 0 2 4#32) (State.reset.setX 2 0x00100073) = .next t) ∧
    effAddr 0 4#32 (State.reset.setX 2 0x00100073) = (State.reset.setX 2 0x00100073).pc + 4#32 ∧
    decode ((State.reset.setX 2 0x00100073).x 2) = some .ebreak :=
  ⟨⟨_, rfl⟩, by decide, by decide⟩

/-- An image that just fits, and one byte more. -/
theorem witness_LoadCopiesTheImage :
    [1#8, 2#8, 3#8, 4#8].length ≤ (State.create 4).mem.size := by decide
theorem witness_OversizedLoadIsRefused :
    (State.create 4).mem.size < [1#8, 2#8, 3#8, 4#8, 5#8].length := by decide

theorem witness_StepReportsAndFailuresAreAtomic :
    (∃ f, step State.reset = .fault f) ∧ ∃ t, step (at100 0x00500093 []) = .next t :=
  ⟨⟨_, rfl⟩, _, rfl⟩

theorem witness_LuiLoadsTheUpperImmediate : opcodeOf 0xFFFFFFB7#32 = 0b0110111#7 := by decide
theorem witness_AuipcAddsToItsOwnAddress : opcodeOf 0xFFFFF297#32 = 0b0010111#7 := by decide
theorem witness_JalLinksAndJumpsRelative : opcodeOf 0xF01FF06F#32 = 0b1101111#7 := by decide
theorem witness_JalrLinksAndJumpsToTheEvenSum :
    opcodeOf 0xFFF100E7#32 = 0b1100111#7 ∧ funct3Of 0xFFF100E7#32 = 0b000#3 := by decide

/-- Each kind of transfer, to the first address that cannot be fetched from. -/
theorem witness_TargetsAreCheckedOnlyAtTheNextFetch :
    formatOf (.beq 0 0 0xFFE#32) = .B ∧ formatOf (.jal 0 0xFFE#32) = .J ∧
    ((exec (.beq 0 0 0xFFE#32) State.reset = .next (State.reset.setPc 0xFFE) ∧
      exec (.jal 0 0xFFE#32) State.reset = .next (State.reset.setPc 0xFFE) ∧
      exec (.jalr 0 0 0xFFF#32) State.reset = .next (State.reset.setPc 0xFFE)) ∧
    ¬ (State.reset.setPc 0xFFE).pc.toNat + 4 ≤ (State.reset.setPc 0xFFE).mem.size) :=
  ⟨rfl, rfl, ⟨rfl, rfl, rfl⟩, by decide⟩

/-- Words of the six branches, and register values at which each predicate holds and fails. -/
theorem witness_BranchesFollowTheirPredicates :
    (∀ p ∈ [(0x00208463#32, 0b000#3), (0xFE209EE3#32, 0b001#3), (0x0020C863#32, 0b100#3),
      (0x0020D863#32, 0b101#3), (0x0020E863#32, 0b110#3), (0xF000F0E3#32, 0b111#3)],
      opcodeOf p.1 = 0b1100011#7 ∧ funct3Of p.1 = p.2) ∧
    (0x80000000#32).toInt < (0x7FFFFFFF#32).toInt ∧ ¬ (5#32).toInt < (5#32).toInt ∧
    (0x7FFFFFFF#32).toNat < (0x80000000#32).toNat ∧ ¬ (5#32).toNat < (5#32).toNat :=
  ⟨forall_of_all (by decide), by decide⟩

/-- Words of the five loads, the last address each width fits at, and the first it does not. -/
theorem witness_LoadsReadAndExtend :
    (∀ p ∈ [(0x00408183#32, 0b000#3), (0x00209183#32, 0b001#3), (0xFFC0A183#32, 0b010#3),
      (0x0010C183#32, 0b100#3), (0x0020D183#32, 0b101#3)],
      opcodeOf p.1 = 0b0000011#7 ∧ funct3Of p.1 = p.2) ∧
    ∀ n ∈ [1, 2, 4],
      (effAddr 0 (BitVec.ofNat 32 (4096 - n)) State.reset).toNat + n ≤ State.reset.mem.size ∧
      ¬ (effAddr 0 (BitVec.ofNat 32 (4097 - n)) State.reset).toNat + n ≤ State.reset.mem.size :=
  ⟨forall_of_all (by decide), forall_of_all (by decide)⟩

/-- The failing clause's further hypotheses: the load is what the step runs. -/
theorem witness_LoadsReadAndExtend_fails :
    (at100 0x0010C183 [(1, 0xFFF#32)]).mem.InBounds (at100 0x0010C183 [(1, 0xFFF#32)]).pc 4 ∧
    decode (fetchWord (at100 0x0010C183 [(1, 0xFFF#32)])) = some (.lbu 3 1 1#32) ∧
    ¬ (effAddr 1 1#32 (at100 0x0010C183 [(1, 0xFFF#32)])).toNat + 1 ≤
      (at100 0x0010C183 [(1, 0xFFF#32)]).mem.size := by decide

theorem witness_StoresWriteTheirBytesOnly :
    (∀ p ∈ [(0x00208023#32, 0b000#3), (0x002090A3#32, 0b001#3), (0xFE20AE23#32, 0b010#3)],
      opcodeOf p.1 = 0b0100011#7 ∧ funct3Of p.1 = p.2) ∧
    ∀ n ∈ [1, 2, 4],
      (effAddr 0 (BitVec.ofNat 32 (4096 - n)) State.reset).toNat + n ≤ State.reset.mem.size ∧
      ¬ (effAddr 0 (BitVec.ofNat 32 (4097 - n)) State.reset).toNat + n ≤ State.reset.mem.size :=
  ⟨forall_of_all (by decide), forall_of_all (by decide)⟩

theorem witness_StoresWriteTheirBytesOnly_fails :
    (at100 0x00209023 [(1, 0xFFF#32)]).mem.InBounds (at100 0x00209023 [(1, 0xFFF#32)]).pc 4 ∧
    decode (fetchWord (at100 0x00209023 [(1, 0xFFF#32)])) = some (.sh 1 2 0#32) ∧
    ¬ (effAddr 1 0#32 (at100 0x00209023 [(1, 0xFFF#32)])).toNat + 2 ≤
      (at100 0x00209023 [(1, 0xFFF#32)]).mem.size := by decide

theorem witness_ImmediateArithmeticAndLogic :
    ∀ p ∈ [(0xFFF08093#32, 0b000#3), (0x7FF0C193#32, 0b100#3), (0x8000E193#32, 0b110#3),
      (0x7FF0F193#32, 0b111#3)],
      opcodeOf p.1 = 0b0010011#7 ∧ funct3Of p.1 = p.2 :=
  forall_of_all (by decide)

theorem witness_ImmediateComparisons :
    ∀ p ∈ [(0x0010A193#32, 0b010#3), (0xFFF0B193#32, 0b011#3)],
      opcodeOf p.1 = 0b0010011#7 ∧ funct3Of p.1 = p.2 :=
  forall_of_all (by decide)

/-- Words of the three shifts, words that are none, and a state that fetches one of those. -/
theorem witness_ImmediateShifts :
    (∀ p ∈ [(0x01F11093#32, 0b001#3, 0b0000000#7), (0x00115093#32, 0b101#3, 0b0000000#7),
      (0x4040D193#32, 0b101#3, 0b0100000#7), (0x02011093#32, 0b001#3, 0b0000001#7),
      (0x6040D193#32, 0b101#3, 0b0110000#7)],
      opcodeOf p.1 = 0b0010011#7 ∧ funct3Of p.1 = p.2.1 ∧ funct7Of p.1 = p.2.2) ∧
    (at100 0x02011093 []).mem.InBounds (at100 0x02011093 []).pc 4 ∧
    fetchWord (at100 0x02011093 []) = 0x02011093#32 :=
  ⟨forall_of_all (by decide), by decide⟩

theorem witness_RegisterArithmeticAndLogic :
    ∀ p ∈ [(0x002081B3#32, 0b000#3, 0b0000000#7), (0x402081B3#32, 0b000#3, 0b0100000#7),
      (0x0020C1B3#32, 0b100#3, 0b0000000#7), (0x0020E1B3#32, 0b110#3, 0b0000000#7),
      (0x0020F1B3#32, 0b111#3, 0b0000000#7)],
      opcodeOf p.1 = 0b0110011#7 ∧ funct3Of p.1 = p.2.1 ∧ funct7Of p.1 = p.2.2 :=
  forall_of_all (by decide)

theorem witness_RegisterComparisons :
    ∀ p ∈ [(0x0020A1B3#32, 0b010#3, 0b0000000#7), (0x002031B3#32, 0b011#3, 0b0000000#7)],
      opcodeOf p.1 = 0b0110011#7 ∧ funct3Of p.1 = p.2.1 ∧ funct7Of p.1 = p.2.2 :=
  forall_of_all (by decide)

theorem witness_RegisterShifts :
    ∀ p ∈ [(0x002091B3#32, 0b001#3, 0b0000000#7), (0x0020D1B3#32, 0b101#3, 0b0000000#7),
      (0x4020D1B3#32, 0b101#3, 0b0100000#7)],
      opcodeOf p.1 = 0b0110011#7 ∧ funct3Of p.1 = p.2.1 ∧ funct7Of p.1 = p.2.2 :=
  forall_of_all (by decide)

/-- Words of FENCE and FENCE.I, and a state that fetches one of the four. -/
theorem witness_FenceAndEnvironmentInstructionsFail :
    opcodeOf 0x8330000F#32 = 0b0001111#7 ∧ funct3Of 0x8330000F#32 = 0b000#3 ∧
    opcodeOf 0xFFFF9F8F#32 = 0b0001111#7 ∧ funct3Of 0xFFFF9F8F#32 = 0b001#3 ∧
    (place 0xFFC 0x00000073 [] []).mem.InBounds (place 0xFFC 0x00000073 [] []).pc 4 ∧
    decode (fetchWord (place 0xFFC 0x00000073 [] [])) = some .ecall := by decide

theorem witness_CsrInstructionsReadThenUpdate :
    ∀ p ∈ [(0x34009073#32, 0b001#3), (0xFFF022F3#32, 0b010#3), (0x3400B1F3#32, 0b011#3),
      (0x340FD1F3#32, 0b101#3), (0x3402E1F3#32, 0b110#3), (0xC00FF0F3#32, 0b111#3)],
      opcodeOf p.1 = 0b1110011#7 ∧ funct3Of p.1 = p.2 :=
  forall_of_all (by decide)

theorem witness_CsrWriteThenReadReturnsTheValue :
    (5#5 : Reg) ≠ 0#5 ∧ (6#5 : Reg) ≠ 0#5 ∧
    ∃ t, exec (.csrrw 0 5 0xFFF) (State.reset.setX 5 0xCAFEBABE) = .next t :=
  ⟨by decide, by decide, _, rfl⟩

end Sys2Proof.Tests
end

section
/-! PROOFS. What the branch and jump immediates of a decoded word are, by the format each
sub-decoder answers, and that targets built from them are even (R108, R110). -/

namespace Sys2Proof

theorem decodeBranch_view {w : Word} {i : Instr} (h : decodeBranch w = some i) :
    formatOf i = .B ∧ (accessors i).imm = some (immB w) := by
  unfold decodeBranch at h
  split at h <;> cases h <;> exact ⟨rfl, rfl⟩

theorem decodeLoad_format {w : Word} {i : Instr} (h : decodeLoad w = some i) :
    formatOf i = .I := by
  unfold decodeLoad at h
  split at h <;> cases h <;> rfl

theorem decodeStore_format {w : Word} {i : Instr} (h : decodeStore w = some i) :
    formatOf i = .S := by
  unfold decodeStore at h
  split at h <;> cases h <;> rfl

theorem decodeOpImm_format {w : Word} {i : Instr} (h : decodeOpImm w = some i) :
    formatOf i = .I := by
  unfold decodeOpImm at h
  repeat' split at h
  all_goals cases h <;> rfl

theorem decodeOp_format {w : Word} {i : Instr} (h : decodeOp w = some i) :
    formatOf i = .R := by
  unfold decodeOp at h
  split at h <;> cases h <;> rfl

theorem decodeMiscMem_format {w : Word} {i : Instr} (h : decodeMiscMem w = some i) :
    formatOf i = .I := by
  unfold decodeMiscMem at h
  split at h <;> cases h <;> rfl

theorem decodeSystem_format {w : Word} {i : Instr} (h : decodeSystem w = some i) :
    formatOf i = .I := by
  unfold decodeSystem at h
  repeat' split at h
  all_goals cases h <;> rfl

/-- The immediate a B or J variant exposes is the one its format reads from the word (R312, R314,
R339). -/
theorem decode_targetImm {w : Word} {i : Instr} (h : decode w = some i) :
    (formatOf i = .B → (accessors i).imm = some (immB w)) ∧
    (formatOf i = .J → (accessors i).imm = some (immJ w)) := by
  have other : formatOf i = .I ∨ formatOf i = .S ∨ formatOf i = .R ∨ formatOf i = .U →
      (formatOf i = .B → (accessors i).imm = some (immB w)) ∧
      (formatOf i = .J → (accessors i).imm = some (immJ w)) := by
    rintro (hf | hf | hf | hf) <;> simp [hf]
  unfold decode at h
  split at h
  · cases h; exact other (by simp [formatOf])
  · cases h; exact other (by simp [formatOf])
  · cases h; exact ⟨nofun, fun _ => rfl⟩
  · split at h
    · cases h; exact other (by simp [formatOf])
    · cases h
  · obtain ⟨hf, himm⟩ := decodeBranch_view h
    exact ⟨fun _ => himm, by simp [hf]⟩
  · exact other (.inl (decodeLoad_format h))
  · exact other (.inr (.inl (decodeStore_format h)))
  · exact other (.inl (decodeOpImm_format h))
  · exact other (.inr (.inr (.inl (decodeOp_format h))))
  · exact other (.inl (decodeMiscMem_format h))
  · exact other (.inl (decodeSystem_format h))
  · cases h

/-! ## Even words -/

/-- A word is even when its bit 0 is clear. -/
theorem even_of_bit0 {w : Word} (h : w.getLsbD 0 = false) : w.toNat % 2 = 0 := by
  rw [← BitVec.testBit_toNat, Nat.testBit_zero, decide_eq_false_iff_not] at h
  omega

/-- A sign extension of bits that end in a 0 is even. -/
theorem signExtend_append_zero_even {n : Nat} (x : BitVec n) :
    ((x ++ 0#1).signExtend 32).toNat % 2 = 0 := by
  apply even_of_bit0
  rw [BitVec.getLsbD_signExtend, BitVec.getLsbD_append]
  simp

theorem immB_even (w : Word) : (immB w).toNat % 2 = 0 :=
  signExtend_append_zero_even _

theorem immJ_even (w : Word) : (immJ w).toNat % 2 = 0 :=
  signExtend_append_zero_even _

theorem add_even {a b : Word} (ha : a.toNat % 2 = 0) (hb : b.toNat % 2 = 0) :
    (a + b).toNat % 2 = 0 := by
  rw [BitVec.toNat_add]
  omega

theorem clearBit0_even (t : Word) : (Machine.clearBit0 t).toNat % 2 = 0 :=
  even_of_bit0 (by simp [Machine.clearBit0])

end Sys2Proof
end

section
/-! PROOFS. The layer between the shared operations and the statements: what a completed load,
store or branch is, that the state's operations keep the invariant, and the comparisons as
statements on numbers. -/

namespace Sys2Proof.Machine

/-! ## Inversion of the shared operations that can fail -/

/-- A load that completes wrote one register and the pc. -/
theorem loadReg_next {n : Nat} {value : Memory → Nat → Word} {rd rs1 : Reg} {imm : Word}
    {s t : State} (h : loadReg n value rd rs1 imm s = .next t) :
    ∃ v, t = (s.setX rd v).setPc (s.pc + 4#32) := by
  by_cases hb : s.mem.InBounds (effAddr rs1 imm s) n
  · rw [loadReg_inBounds value rd hb] at h
    cases h; exact ⟨_, rfl⟩
  · rw [loadReg_outOfBounds value rd hb] at h
    cases h

/-- A load, which is an instruction with a data access and a destination, writes that register
when it completes (R460). -/
theorem exec_load_next {i : Instr} {s t : State} {rd : Reg} {access : Word × Nat}
    (h : exec i s = .next t) (hrd : destReg i = some rd) (hd : dataAccess i s = some access) :
    ∃ v, t = (s.setX rd v).setPc (s.pc + 4#32) := by
  cases i with
  | lb | lh | lw | lbu | lhu =>
    cases hrd
    simp only [exec, execLb, execLh, execLw, execLbu, execLhu] at h
    exact loadReg_next h
  | sb | sh | sw => cases hrd
  | _ => cases hd

/-- A store that completes left every register and advanced the pc. -/
theorem storeReg_next {n : Nat} {rs1 rs2 : Reg} {imm : Word} {s t : State}
    (h : storeReg n rs1 rs2 imm s = .next t) : t.regs = s.regs ∧ t.pc = s.pc + 4#32 := by
  by_cases hb : s.mem.InBounds (effAddr rs1 imm s) n
  · obtain ⟨u, hu, hpc, hregs, -⟩ := storeReg_inBounds rs2 hb
    cases hu.symm.trans h; exact ⟨hregs, hpc⟩
  · rw [storeReg_outOfBounds rs2 hb] at h
    cases h

/-- A branch left every register and moved the pc by its predicate. -/
theorem branchIf_next {cond : Bool} {imm : Word} {s t : State}
    (h : branchIf cond imm s = .next t) :
    t.regs = s.regs ∧ t.pc = if cond = true then s.pc + imm else s.pc + 4#32 := by
  rw [branchIf_spec] at h
  cases h; exact ⟨rfl, rfl⟩

/-! ## The invariant under each operation on the state -/

section Inv
variable {s : State}

theorem inv_setPc (h : s.Inv) (t : Word) : (s.setPc t).Inv := h

theorem inv_setX (h : s.Inv) (r : Reg) (v : Word) : (s.setX r v).Inv := by
  obtain ⟨hsize, hmem, hcsr, hzero⟩ := h
  exact ⟨by rwa [State.memSizeLegal, setX_mem], by rwa [setX_mem], by rwa [setX_csrWf],
    (setX_regs_zero s r v).trans hzero⟩

theorem inv_csrWrite (h : s.Inv) (c : CsrIdx) (v : Word) : (s.csrWrite c v).Inv := by
  obtain ⟨hsize, hmem, hcsr, hzero⟩ := h
  exact ⟨hsize, hmem, csrWrite_wf s c v hcsr, hzero⟩

theorem inv_memWrite (h : s.Inv) {a n : Nat} (v : Word) (ha : a + n ≤ s.mem.size) :
    ({ s with mem := s.mem.write a n v } : State).Inv := by
  obtain ⟨hsize, hmem, hcsr, hzero⟩ := h
  exact ⟨by rwa [State.memSizeLegal, write_size], write_wf s.mem v ha hmem, hcsr, hzero⟩

end Inv

/-- An instruction that completes keeps the invariant. -/
theorem exec_keeps_inv {i : Instr} {s t : State} (hs : s.Inv) (h : exec i s = .next t) :
    t.Inv := by
  obtain ⟨rd, v, rfl⟩ | ⟨rd, target, rfl, -⟩ | ⟨imm, -, rfl | rfl⟩ |
    ⟨ea, n, rs2, hb, -, rfl⟩ | ⟨rd, c, v, -, rfl⟩ := exec_cases h
  · exact inv_setPc (inv_setX hs rd v) _
  · exact inv_setPc (inv_setX hs rd _) _
  · exact inv_setPc hs _
  · exact inv_setPc hs _
  · exact inv_setPc (inv_memWrite hs _ hb) _
  · exact inv_setPc (inv_csrWrite (inv_setX hs rd _) c v) _

/-- No instruction changes the memory size (R14). -/
theorem exec_keeps_memSize {i : Instr} {s t : State} (h : exec i s = .next t) :
    t.mem.size = s.mem.size := by
  obtain ⟨rd, v, rfl⟩ | ⟨rd, target, rfl, -⟩ | ⟨imm, -, rfl | rfl⟩ |
    ⟨ea, n, rs2, hb, -, rfl⟩ | ⟨rd, c, v, -, rfl⟩ := exec_cases h <;> simp

theorem step_keeps_inv {s t : State} (hs : s.Inv) (h : step s = .next t) : t.Inv := by
  obtain ⟨i, -, he⟩ := step_next h
  exact exec_keeps_inv hs he

theorem step_keeps_memSize {s t : State} (h : step s = .next t) : t.mem.size = s.mem.size := by
  obtain ⟨i, -, he⟩ := step_next h
  exact exec_keeps_memSize he

/-- What every step keeps, every run keeps. -/
theorem run_keeps {P : State → Prop} (hstep : ∀ s t, P s → step s = .next t → P t) (k : Nat)
    {s t : State} (hs : P s) (h : core.run k s = .next t) : P t := by
  induction k generalizing s with
  | zero => cases h; exact hs
  | succ k ih =>
    obtain ⟨u, hu, hrun⟩ := run_succ h
    exact ih (hstep s u hs hu) hrun

/-! ## The register file after an instruction -/

/-- Reading a register depends on the stored file alone. -/
theorem x_of_regs_eq {s t : State} (h : t.regs = s.regs) (r : Reg) : t.x r = s.x r := by
  simp only [State.x, h]

/-- The register file after an instruction: one write to the destination the spec gives it, or no
change where it has none (R104). -/
theorem exec_regs {i : Instr} {s t : State} (h : exec i s = .next t) :
    (∃ rd v, destReg i = some rd ∧ t.regs = (s.setX rd v).regs) ∨
    (destReg i = none ∧ t.regs = s.regs) := by
  cases i with
  | lui rd imm | auipc rd imm | jal rd imm | jalr rd rs1 imm
  | addi rd rs1 imm | slti rd rs1 imm | sltiu rd rs1 imm
  | xori rd rs1 imm | ori rd rs1 imm | andi rd rs1 imm | slli rd rs1 sh | srli rd rs1 sh
  | srai rd rs1 sh | add rd rs1 rs2 | sub rd rs1 rs2 | sll rd rs1 rs2 | slt rd rs1 rs2
  | sltu rd rs1 rs2 | xor_ rd rs1 rs2 | srl rd rs1 rs2 | sra rd rs1 rs2 | or_ rd rs1 rs2
  | and_ rd rs1 rs2 | csrrw rd rs1 c | csrrs rd rs1 c | csrrc rd rs1 c | csrrwi rd u c
  | csrrsi rd u c | csrrci rd u c => cases h; exact .inl ⟨rd, _, rfl, rfl⟩
  | lb rd rs1 imm | lh rd rs1 imm | lw rd rs1 imm | lbu rd rs1 imm | lhu rd rs1 imm =>
    obtain ⟨v, rfl⟩ := exec_load_next h rfl rfl
    exact .inl ⟨rd, v, rfl, rfl⟩
  | beq rs1 rs2 imm | bne rs1 rs2 imm | blt rs1 rs2 imm | bge rs1 rs2 imm | bltu rs1 rs2 imm
  | bgeu rs1 rs2 imm => exact .inr ⟨rfl, (branchIf_next h).1⟩
  | sb rs1 rs2 imm | sh rs1 rs2 imm | sw rs1 rs2 imm => exact .inr ⟨rfl, (storeReg_next h).1⟩
  | fence fm pred succ rs1 rd | fencei rd rs1 imm | ecall | ebreak => cases h

/-! ## The comparisons on numbers -/

theorem cmpEq_iff (a b : Word) : cmpEq a b = true ↔ a = b := beq_iff_eq

theorem cmpLtS_iff (a b : Word) : cmpLtS a b = true ↔ a.toInt < b.toInt := BitVec.slt_iff_toInt_lt

theorem cmpLtU_iff (a b : Word) : cmpLtU a b = true ↔ a.toNat < b.toNat := BitVec.ult_iff_lt

/-! ## The CSR file set aside -/

/-- An outcome with the CSR file of its next state replaced. -/
def resultWithCsr (csr' : List (Nat × Word)) : Result → Result
  | .next t => .next { t with csr := csr' }
  | .fault f => .fault f
  | .refused r => .refused r

theorem setX_withCsr (s : State) (csr' : List (Nat × Word)) (r : Reg) (v : Word) :
    ({ s with csr := csr' } : State).setX r v = { s.setX r v with csr := csr' } := by
  unfold State.setX
  split <;> rfl

section WithCsr
variable (csr' : List (Nat × Word)) (s : State)

theorem writeRegNext_withCsr (rd : Reg) (v : Word) :
    writeRegNext rd v { s with csr := csr' } = resultWithCsr csr' (writeRegNext rd v s) := by
  simp only [writeRegNext, setX_withCsr]; rfl

theorem jumpLink_withCsr (rd : Reg) (target : Word) :
    jumpLink rd target { s with csr := csr' } = resultWithCsr csr' (jumpLink rd target s) := by
  simp only [jumpLink, setX_withCsr]; rfl

theorem branchIf_withCsr (cond : Bool) (imm : Word) :
    branchIf cond imm { s with csr := csr' } = resultWithCsr csr' (branchIf cond imm s) := rfl

theorem loadReg_withCsr (n : Nat) (value : Memory → Nat → Word) (rd rs1 : Reg) (imm : Word) :
    loadReg n value rd rs1 imm { s with csr := csr' } =
      resultWithCsr csr' (loadReg n value rd rs1 imm s) := by
  by_cases hb : s.mem.InBounds (effAddr rs1 imm s) n
  · rw [loadReg_inBounds value rd hb, ← writeRegNext_withCsr]
    exact loadReg_inBounds value rd hb
  · rw [loadReg_outOfBounds value rd hb]
    exact loadReg_outOfBounds value rd hb

theorem storeReg_withCsr (n : Nat) (rs1 rs2 : Reg) (imm : Word) :
    storeReg n rs1 rs2 imm { s with csr := csr' } =
      resultWithCsr csr' (storeReg n rs1 rs2 imm s) := by
  by_cases hb : s.mem.InBounds (effAddr rs1 imm s) n
  · rw [show storeReg n rs1 rs2 imm s = _ from if_pos hb]
    exact if_pos hb
  · rw [storeReg_outOfBounds rs2 hb]
    exact storeReg_outOfBounds rs2 hb

/-- An instruction other than the six runs alike with any CSR file, and hands it on (R112). -/
theorem exec_withCsr {i : Instr} (hi : isCsr i = false) :
    exec i { s with csr := csr' } = resultWithCsr csr' (exec i s) := by
  cases i with
  | lui | auipc | addi | slti | sltiu | xori | ori | andi | slli | srli | srai | add | sub | sll
  | slt | sltu | xor_ | srl | sra | or_ | and_ => exact writeRegNext_withCsr csr' s _ _
  | jal | jalr => exact jumpLink_withCsr csr' s _ _
  | beq | bne | blt | bge | bltu | bgeu => exact branchIf_withCsr csr' s _ _
  | lb | lh | lw | lbu | lhu =>
    simp only [exec, execLb, execLh, execLw, execLbu, execLhu, loadReg_withCsr]
  | sb | sh | sw => exact storeReg_withCsr csr' s _ _ _ _
  | fence | fencei | ecall | ebreak => rfl
  | csrrw | csrrs | csrrc | csrrwi | csrrsi | csrrci => cases hi

end WithCsr

/-! ## The step by the outcome of its fetch -/

theorem step_outOfBounds {s : State} (hb : ¬ s.mem.InBounds s.pc 4) :
    step s = .fault (.outOfBoundsAccess s.pc 4) := by
  simp only [step, fetchDecode, if_neg hb, raise]

theorem step_invalidEncoding {s : State} (hb : s.mem.InBounds s.pc 4)
    (hd : decode (fetchWord s) = none) :
    step s = .fault (.invalidEncoding (fetchWord s) s.pc) := by
  simp only [step, fetchDecode, if_pos hb, hd, raise]

theorem step_of_decode {s : State} {i : Instr} (hb : s.mem.InBounds s.pc 4)
    (hd : decode (fetchWord s) = some i) : step s = exec i s := by
  rw [step, fetchDecode_of hb hd]

/-- A placed word leaves the pc in bounds and is the word fetched there (R132). -/
theorem placeWord_fetch {s : State} (w : Word) (hb : s.mem.InBounds s.pc 4) :
    (placeWord s w).mem.InBounds (placeWord s w).pc 4 ∧ fetchWord (placeWord s w) = w := by
  rw [placeWord, if_pos hb]
  exact ⟨by simpa using hb, read32_write s.mem s.pc.toNat w⟩

end Sys2Proof.Machine
end

section
/-! PROOFS. The obligations of 10_state.md. -/

namespace Sys2Proof.Machine

/-- Settles O15: every operation an instruction is made of keeps the invariant. -/
theorem stepKeepsInvariant : Obligations.StepKeepsInvariant :=
  fun _ _ hs h => step_keeps_inv hs h

/-- Settles O17, by induction on the number of steps, with the first state's memory size kept
beside the invariant. -/
theorem runsKeepInvariantAndMemorySize : Obligations.RunsKeepInvariantAndMemorySize := by
  intro k s t hs h
  have hstep : ∀ u v : State, u.Inv ∧ u.mem.size = s.mem.size → step u = .next v →
      v.Inv ∧ v.mem.size = s.mem.size :=
    fun u v ⟨hu, hsize⟩ huv => ⟨step_keeps_inv hu huv, (step_keeps_memSize huv).trans hsize⟩
  exact run_keeps hstep k ⟨hs, rfl⟩ h

/-- Settles O18: a decoded jump or branch immediate is even, and JALR clears bit 0. -/
theorem stepKeepsPcEven : Obligations.StepKeepsPcEven := by
  intro s t hs h
  obtain ⟨i, hf, he⟩ := step_next h
  obtain ⟨-, hd⟩ := fetchDecode_ok hf
  obtain ⟨hB, hJ⟩ := decode_targetImm hd
  have hnext : (s.pc + 4#32).toNat % 2 = 0 := add_even hs rfl
  obtain ⟨rd, v, rfl⟩ | ⟨rd, target, rfl, ⟨imm, rfl, rfl⟩ | ⟨rs1, imm, rfl, rfl⟩⟩ |
    ⟨imm, ⟨rs1, rs2, hi⟩, ht⟩ | ⟨ea, n, rs2, -, -, rfl⟩ | ⟨rd, c, v, -, rfl⟩ := exec_cases he
  · exact hnext
  · obtain rfl : imm = immJ _ := Option.some.inj (hJ rfl)
    exact add_even hs (immJ_even _)
  · exact clearBit0_even _
  · have himm : imm = immB (fetchWord s) := by
      obtain rfl | rfl | rfl | rfl | rfl | rfl := hi <;> exact Option.some.inj (hB rfl)
    obtain rfl | rfl := ht
    · exact add_even hs (himm ▸ immB_even _)
    · exact hnext
  · exact hnext
  · exact hnext

/-- Settles O19: the only register write of an instruction is to its destination, and a write to
register 0 leaves the file as it was. -/
theorem writesToRegisterZeroAreDiscarded : Obligations.WritesToRegisterZeroAreDiscarded := by
  intro i s t h
  obtain ⟨rd, v, hrd, hregs⟩ | ⟨hnone, hregs⟩ := exec_regs h
  · refine ⟨fun hzero => ?_, ?_, x_zero t⟩
    · obtain rfl : rd = 0#5 := Option.some.inj (hrd.symm.trans hzero)
      rw [hregs, setX_zero]
    · rw [hregs, setX_regs_zero]
  · exact ⟨fun _ => hregs, by rw [hregs], x_zero t⟩

/-- Settles O20: a register other than the one written reads as before. -/
theorem onlyTheDestinationRegisterChanges : Obligations.OnlyTheDestinationRegisterChanges := by
  intro i s t h r hr
  obtain ⟨rd, v, hrd, hregs⟩ | ⟨-, hregs⟩ := exec_regs h
  · have hne : r ≠ rd := fun e => hr (e ▸ hrd)
    rw [x_of_regs_eq hregs, x_setX, if_neg fun hw => hne hw.1]
  · exact x_of_regs_eq hregs r

/-- Settles O22: the run with another CSR file is the same run with that file handed on; with the
state's own file this says the file is kept. -/
theorem onlyCsrInstructionsTouchTheCsrFile : Obligations.OnlyCsrInstructionsTouchTheCsrFile := by
  intro i s csr' hi
  refine ⟨fun t h => ⟨?_, ?_⟩, fun f h => ?_⟩
  · have hown : exec i s = resultWithCsr s.csr (exec i s) := exec_withCsr s.csr s hi
    rw [h] at hown
    have ht : t = { t with csr := s.csr } := Host.Outcome.next.inj hown
    rw [ht]
  · rw [exec_withCsr csr' s hi, h]; rfl
  · rw [exec_withCsr csr' s hi, h]; rfl

/-- Settles O23: a branch moves the pc by its comparison, read on numbers; JAL and JALR write their
target; every other instruction that completes writes `A + 4`. -/
theorem pcAfterEachInstruction : Obligations.PcAfterEachInstruction := by
  intro i s t h
  cases i with
  | beq | bne | blt | bge | bltu | bgeu =>
    rw [(branchIf_next h).2]
    simp [pcAfter, cmpEq_iff, cmpLtS_iff, cmpLtU_iff, ← Bool.not_eq_true]
  | lb | lh | lw | lbu | lhu =>
    obtain ⟨v, rfl⟩ := exec_load_next h rfl rfl
    rfl
  | sb | sh | sw => exact (storeReg_next h).2
  | fence | fencei | ecall | ebreak => cases h
  | _ => cases h; rfl

/-- Settles O7, by the three outcomes of the fetch. -/
theorem stepRunsTheDecodedInstruction : Obligations.StepRunsTheDecodedInstruction :=
  fun _ => ⟨step_outOfBounds, step_invalidEncoding, fun hb _ hd => step_of_decode hb hd⟩

/-- Settles O12: the four bytes written at the pc are the word the fetch reads back. -/
theorem placedWordIsFetched : Obligations.PlacedWordIsFetched := by
  intro s nbits w i hb hd
  obtain ⟨hb', hfetch⟩ := placeWord_fetch (tableWord nbits w) hb
  rw [decodeTableWord_eq, ← hfetch] at hd
  exact step_of_decode hb' hd

/-- Settles O14: the reset lists are empty, hence canonical. -/
theorem resetSatisfiesInvariant : Obligations.ResetSatisfiesInvariant :=
  ⟨by decide, reset_mem_wf, rfl, rfl⟩

end Sys2Proof.Machine
end

section
/-! PROOFS. Memory read byte by byte, narrow reads of a written value, and what a load sees after a
store (R206 to R209). -/

namespace Sys2Proof.Machine

/-! ## The bytes of an appended word -/

theorem byte_append_zero {w : Nat} (hi : BitVec w) (lo : Byte) :
    (hi ++ lo).extractLsb' 0 8 = lo :=
  (BitVec.extractLsb'_append_eq_of_add_le (by decide)).trans BitVec.extractLsb'_eq_self

theorem byte_append_succ {w : Nat} (hi : BitVec w) (lo : Byte) (k : Nat) :
    (hi ++ lo).extractLsb' (8 * (k + 1)) 8 = hi.extractLsb' (8 * k) 8 :=
  BitVec.extractLsb'_append_eq_of_le (Nat.le_add_left 8 (8 * k))

section Memory
variable (m : Memory) (a : Nat) (v : Word)

/-! ## Reads, byte by byte -/

theorem read16_byte {k : Nat} (hk : k < 2) :
    (m.read16 a).extractLsb' (8 * k) 8 = m.byte (a + k) :=
  match k, hk with
  | 0, _ => byte_append_zero _ _
  | 1, _ => (byte_append_succ _ _ 0).trans BitVec.extractLsb'_eq_self

theorem read32_byte {k : Nat} (hk : k < 4) :
    (m.read32 a).extractLsb' (8 * k) 8 = m.byte (a + k) :=
  match k, hk with
  | 0, _ => byte_append_zero _ _
  | 1, _ => (byte_append_succ _ _ 0).trans (byte_append_zero _ _)
  | 2, _ => (byte_append_succ _ _ 1).trans ((byte_append_succ _ _ 0).trans (byte_append_zero _ _))
  | 3, _ => (byte_append_succ _ _ 2).trans ((byte_append_succ _ _ 1).trans
      ((byte_append_succ _ _ 0).trans BitVec.extractLsb'_eq_self))

/-! ## Reads after a write -/

theorem byte_write_inside {n k : Nat} (hk : k < n) :
    (m.write a n v).byte (a + k) = v.extractLsb' (8 * k) 8 := by
  rw [byte_write, if_pos (by omega), Nat.add_sub_cancel_left]

theorem byte_write_outside {n b : Nat} (hb : b < a ∨ a + n ≤ b) :
    (m.write a n v).byte b = m.byte b := by
  rw [byte_write, if_neg (by omega)]

theorem read8_write : (m.write a 1 v).read8 a = v.extractLsb' 0 8 :=
  byte_write_inside m a v Nat.one_pos

theorem read16_write : (m.write a 2 v).read16 a = v.extractLsb' 0 16 := by
  have hlow : (m.write a 2 v).byte a = v.extractLsb' 0 8 :=
    byte_write_inside m a v Nat.two_pos
  have hhigh : (m.write a 2 v).byte (a + 1) = v.extractLsb' 8 8 :=
    byte_write_inside m a v Nat.one_lt_two
  rw [Memory.read16, hlow, hhigh]
  exact BitVec.extractLsb'_append_extractLsb'_eq_extractLsb' rfl

end Memory

/-- A field of a word, zero-extended to 32 bits, as a number. -/
theorem toNat_zext_extract (v : Word) (start : Nat) {len : Nat} (hlen : len ≤ 32) :
    ((v.extractLsb' start len).setWidth 32).toNat = v.toNat / 2 ^ start % 2 ^ len := by
  rw [BitVec.toNat_setWidth_of_le hlen, BitVec.extractLsb'_toNat, Nat.shiftRight_eq_div_pow]

/-- The low bits of a word, zero-extended to 32 bits, as a number. -/
theorem toNat_zext_low (v : Word) {len : Nat} (hlen : len ≤ 32) :
    ((v.extractLsb' 0 len).setWidth 32).toNat = v.toNat % 2 ^ len := by
  rw [toNat_zext_extract v 0 hlen, pow_zero, Nat.div_one]

/-! ## Memory after an instruction -/

/-- A store that completes was in bounds, and wrote its bytes and nothing else (R207, R480). -/
theorem storeReg_next_mem {n : Nat} {rs1 rs2 : Reg} {imm : Word} {s t : State}
    (h : storeReg n rs1 rs2 imm s = .next t) :
    s.mem.InBounds (effAddr rs1 imm s) n ∧
      t.mem = s.mem.write (effAddr rs1 imm s).toNat n (s.x rs2) := by
  by_cases hb : s.mem.InBounds (effAddr rs1 imm s) n
  · obtain ⟨u, hu, -, -, -, hmem⟩ := storeReg_inBounds rs2 hb
    cases hu.symm.trans h; exact ⟨hb, hmem⟩
  · rw [storeReg_outOfBounds rs2 hb] at h
    cases h

/-- An instruction other than a store leaves memory as it was. -/
theorem exec_keeps_mem {i : Instr} {s t : State} (hi : isStore i = false)
    (h : exec i s = .next t) : t.mem = s.mem := by
  obtain ⟨rd, v, rfl⟩ | ⟨rd, target, rfl, -⟩ | ⟨imm, -, rfl | rfl⟩ |
    ⟨ea, n, rs2, -, ⟨rs1, imm, rfl | rfl | rfl⟩, -⟩ | ⟨rd, c, v, -, rfl⟩ := exec_cases h
  · exact setX_mem s rd v
  · exact setX_mem s rd _
  · rfl
  · rfl
  · cases hi
  · cases hi
  · cases hi
  · exact setX_mem s rd _

/-! ## A load after a store -/

/-- A load in bounds into a register other than 0 completes, and the register reads the loaded
value (R460). -/
theorem loadReg_reads {n : Nat} (value : Memory → Nat → Word) {rd rs1 : Reg} {imm : Word}
    {s : State} (hrd : rd ≠ 0#5) (hb : s.mem.InBounds (effAddr rs1 imm s) n) :
    ∃ u, loadReg n value rd rs1 imm s = .next u ∧
      u.x rd = value s.mem (effAddr rs1 imm s).toNat := by
  obtain ⟨u, hu, -, -, -, -, hx⟩ :=
    writeRegNext_spec rd (value s.mem (effAddr rs1 imm s).toNat) s
  exact ⟨u, (loadReg_inBounds value rd hb).trans hu, (hx rd).trans (if_pos ⟨rfl, hrd⟩)⟩

/-- A load that ends no higher than a completed store completes, and reads from the memory the
store wrote: no register changed, so the load's address is the one it had before the store. -/
theorem loadReg_after_storeReg {n n' : Nat} (value : Memory → Nat → Word)
    {base src addr rd : Reg} {imm imm' : Word} {s t : State} (hrd : rd ≠ 0#5)
    (h : storeReg n base src imm s = .next t)
    (hend : (effAddr addr imm' s).toNat + n' ≤ (effAddr base imm s).toNat + n) :
    ∃ u, loadReg n' value rd addr imm' t = .next u ∧
      u.x rd = value (s.mem.write (effAddr base imm s).toNat n (s.x src))
        (effAddr addr imm' s).toNat := by
  obtain ⟨hb, hmem⟩ := storeReg_next_mem h
  have haddr : effAddr addr imm' t = effAddr addr imm' s :=
    congrArg (· + imm') (x_of_regs_eq (storeReg_next h).1 addr)
  have hb' : t.mem.InBounds (effAddr addr imm' t) n' := by
    rw [Memory.InBounds, haddr, hmem, write_size]
    exact hend.trans hb
  simpa only [haddr, hmem] using loadReg_reads value hrd hb'

end Sys2Proof.Machine
end

section
/-! PROOFS. The obligations of 20_memory.md. -/

namespace Sys2Proof.Machine

/-- Settles O21: register, pc and CSR writes leave the memory itself alone. -/
theorem onlyStoresChangeMemory : Obligations.OnlyStoresChangeMemory := by
  intro i s t h hi
  have hmem : t.mem = s.mem := exec_keeps_mem hi h
  exact ⟨by rw [hmem], fun a => by rw [hmem]⟩

/-- Settles O24, by the byte laws of the reads and of the write. -/
theorem memoryIsLittleEndianByteByByte : Obligations.MemoryIsLittleEndianByteByByte :=
  ⟨fun m a => ⟨rfl, fun _ hk => read16_byte m a hk, fun _ hk => read32_byte m a hk⟩,
    fun m a _ v => ⟨fun _ hk => byte_write_inside m a v hk,
      fun _ hb => byte_write_outside m a v hb⟩⟩

/-- Settles O25: the load reads at the store's own address, and a read of the written width is the
low part of the value. -/
theorem loadReadsBackStore : Obligations.LoadReadsBackStore := by
  intro s t base src rd imm hrd
  refine ⟨fun h => ?_, fun h => ⟨?_, ?_⟩, fun h => ⟨?_, ?_⟩⟩
  · obtain ⟨u, hu, hx⟩ := loadReg_after_storeReg (fun m a => m.read32 a) hrd h le_rfl
    exact ⟨u, hu, hx.trans (read32_write _ _ _)⟩
  · obtain ⟨u, hu, hx⟩ :=
      loadReg_after_storeReg (fun m a => (m.read16 a).signExtend 32) hrd h le_rfl
    exact ⟨u, hu, by rw [hx, read16_write]⟩
  · obtain ⟨u, hu, hx⟩ :=
      loadReg_after_storeReg (fun m a => (m.read16 a).setWidth 32) hrd h le_rfl
    refine ⟨u, hu, ?_⟩
    rw [hx, read16_write]
    exact toNat_zext_low _ (by decide)
  · obtain ⟨u, hu, hx⟩ :=
      loadReg_after_storeReg (fun m a => (m.read8 a).signExtend 32) hrd h le_rfl
    exact ⟨u, hu, by rw [hx, read8_write]⟩
  · obtain ⟨u, hu, hx⟩ :=
      loadReg_after_storeReg (fun m a => (m.read8 a).setWidth 32) hrd h le_rfl
    refine ⟨u, hu, ?_⟩
    rw [hx, read8_write]
    exact toNat_zext_low _ (by decide)

/-- Settles O26: the loaded byte lies inside the stored word, so it is byte `k` of the value. -/
theorem byteLoadsSeeTheBytesOfAStoredWord : Obligations.ByteLoadsSeeTheBytesOfAStoredWord := by
  intro s t base src addr rd imm imm' k hrd hk h hea
  obtain ⟨u, hu, hx⟩ := loadReg_after_storeReg (n' := 1)
    (fun m a => (m.read8 a).setWidth 32) (addr := addr) (imm' := imm') hrd h (by omega)
  refine ⟨u, hu, ?_⟩
  rw [hx, hea, Memory.read8, byte_write_inside _ _ _ hk]
  exact toNat_zext_extract _ _ (by decide)

/-- Settles O27: the store leaves the pc at its own effective address, where the fetch reads the
word back. -/
theorem storeIsSeenByTheNextFetch : Obligations.StoreIsSeenByTheNextFetch := by
  intro s t base src imm h hea
  obtain ⟨hb, hmem⟩ := storeReg_next_mem h
  have hpc : t.pc = effAddr base imm s := (storeReg_next h).2.trans hea.symm
  have hb' : t.mem.InBounds t.pc 4 := by
    rwa [Memory.InBounds, hmem, write_size, hpc]
  have hfetch : fetchWord t = s.x src := by
    rw [fetchWord, hmem, hpc, read32_write]
  exact ⟨hb', hfetch, fun i hd => step_of_decode hb' (hfetch ▸ hd)⟩

/-- Settles O8: the fetch is a read of four bytes at the pc. -/
theorem fetchIsLittleEndian : Obligations.FetchIsLittleEndian :=
  fun s _ hk => read32_byte s.mem s.pc.toNat hk

end Sys2Proof.Machine
end

section
/-! PROOFS. Between a word and its fields: what number each immediate stands for, that it is one its
format can hold, and that a word is its fields put together, format by format (R301 to R314). -/

namespace Sys2Proof

/-! ## The number an immediate stands for -/

/-- Put above `m` bits, a nonempty field counts `2 ^ m` fold and keeps its sign. -/
theorem toInt_append_of_pos {n m : Nat} (hn : 0 < n) (x : BitVec n) (y : BitVec m) :
    (x ++ y).toInt = x.toInt * 2 ^ m + y.toNat := by
  have hne : (n == 0) = false := by simpa using Nat.ne_of_gt hn
  rw [BitVec.toInt_append, hne, mul_comm]
  rfl

theorem immI_toInt (w : Word) : (immI w).toInt = (w.extractLsb' 20 12).toInt :=
  BitVec.toInt_signExtend_of_le (by decide)

theorem immS_toInt (w : Word) :
    (immS w).toInt = (w.extractLsb' 25 7).toInt * 32 + (w.extractLsb' 7 5).toNat :=
  (BitVec.toInt_signExtend_of_le (by decide)).trans (toInt_append_of_pos (by decide) _ _)

theorem immB_toInt (w : Word) :
    (immB w).toInt = (w.extractLsb' 31 1).toInt * 4096 + (w.extractLsb' 7 1).toNat * 2048 +
      (w.extractLsb' 25 6).toNat * 32 + (w.extractLsb' 8 4).toNat * 2 := by
  rw [immB, BitVec.toInt_signExtend_of_le (by decide), toInt_append_of_pos (by decide),
    toInt_append_of_pos (by decide), toInt_append_of_pos (by decide),
    toInt_append_of_pos (by decide), BitVec.toNat_ofNat]
  omega

theorem immU_toNat (w : Word) : (immU w).toNat = (w.extractLsb' 12 20).toNat * 4096 := by
  rw [immU, BitVec.toNat_append, BitVec.toNat_ofNat, Nat.shiftLeft_eq]
  simp

theorem immJ_toInt (w : Word) :
    (immJ w).toInt = (w.extractLsb' 31 1).toInt * 1048576 + (w.extractLsb' 12 8).toNat * 4096 +
      (w.extractLsb' 20 1).toNat * 2048 + (w.extractLsb' 21 10).toNat * 2 := by
  rw [immJ, BitVec.toInt_signExtend_of_le (by decide), toInt_append_of_pos (by decide),
    toInt_append_of_pos (by decide), toInt_append_of_pos (by decide),
    toInt_append_of_pos (by decide), BitVec.toNat_ofNat]
  omega

/-! ## The range of an immediate -/

/-- A sign extension of `n` bits stays in the range of `n` signed bits. -/
theorem signExtend_range {n : Nat} (hn : n ≤ 32) (x : BitVec n) :
    -2 ^ (n - 1) ≤ (x.signExtend 32).toInt ∧ (x.signExtend 32).toInt < 2 ^ (n - 1) := by
  rw [BitVec.toInt_signExtend_of_le hn]
  exact ⟨x.le_toInt, x.toInt_lt⟩

theorem immI_range (w : Word) : -2048 ≤ (immI w).toInt ∧ (immI w).toInt ≤ 2047 :=
  (signExtend_range (by decide) _).imp_right Int.le_sub_one_of_lt

theorem immS_range (w : Word) : -2048 ≤ (immS w).toInt ∧ (immS w).toInt ≤ 2047 :=
  (signExtend_range (by decide) _).imp_right Int.le_sub_one_of_lt

/-- The largest B immediate is 4094 and not 4095, since the number is even. -/
theorem immB_range (w : Word) : -4096 ≤ (immB w).toInt ∧ (immB w).toInt ≤ 4094 := by
  have hrange : -4096 ≤ (immB w).toInt ∧ (immB w).toInt < 4096 := signExtend_range (by decide) _
  have hvalue := immB_toInt w
  omega

/-- The largest J immediate is 1048574 and not 1048575, since the number is even. -/
theorem immJ_range (w : Word) : -1048576 ≤ (immJ w).toInt ∧ (immJ w).toInt ≤ 1048574 := by
  have hrange : -1048576 ≤ (immJ w).toInt ∧ (immJ w).toInt < 1048576 :=
    signExtend_range (by decide) _
  have hvalue := immJ_toInt w
  omega

@[simp] theorem fits12_immI (w : Word) : fits12 (immI w) = true := by
  simp [fits12, immI_range w]

@[simp] theorem fits12_immS (w : Word) : fits12 (immS w) = true := by
  simp [fits12, immS_range w]

@[simp] theorem fits13_immB (w : Word) : fits13 (immB w) = true := by
  simp [fits13, immB_range w, immB_even w]

@[simp] theorem fitsUpper_immU (w : Word) : fitsUpper (immU w) = true := by
  simp [fitsUpper, immU_toNat w]

@[simp] theorem fits21_immJ (w : Word) : fits21 (immJ w) = true := by
  simp [fits21, immJ_range w, immJ_even w]

/-! ## The bits of an immediate are fields of its word -/

/-- A field below the sign bit of a sign extension is a field of the extended value. -/
theorem extract_signExtend {n m lo len : Nat} (x : BitVec n) (hlen : lo + len ≤ n) (hn : n ≤ m) :
    (x.signExtend m).extractLsb' lo len = x.extractLsb' lo len := by
  apply BitVec.eq_of_getLsbD_eq
  intro k hk
  have hin : lo + k < n := by omega
  have hout : lo + k < m := by omega
  simp only [BitVec.getLsbD_extractLsb', BitVec.getLsbD_signExtend, hin, hout, decide_true,
    Bool.true_and, if_true]

theorem low12_immI (w : Word) : low12 (immI w) = csrnoOf w :=
  (extract_signExtend _ (by decide) (by decide)).trans (extract_self _)

theorem extract_0_5_immS (w : Word) : (immS w).extractLsb' 0 5 = w.extractLsb' 7 5 :=
  (extract_signExtend _ (by decide) (by decide)).trans (extract_append_lo _ _)

theorem extract_5_7_immS (w : Word) : (immS w).extractLsb' 5 7 = w.extractLsb' 25 7 :=
  (extract_signExtend _ (by decide) (by decide)).trans <|
  (extract_append_hi _ _ 0 7).trans (extract_self _)

theorem extract_1_4_immB (w : Word) : (immB w).extractLsb' 1 4 = w.extractLsb' 8 4 :=
  (extract_signExtend _ (by decide) (by decide)).trans <|
  (extract_append_hi _ _ 0 4).trans (extract_append_lo _ _)

theorem extract_5_6_immB (w : Word) : (immB w).extractLsb' 5 6 = w.extractLsb' 25 6 :=
  (extract_signExtend _ (by decide) (by decide)).trans <|
  (extract_append_hi _ _ 4 6).trans <| (extract_append_hi _ _ 0 6).trans (extract_append_lo _ _)

theorem extract_11_1_immB (w : Word) : (immB w).extractLsb' 11 1 = w.extractLsb' 7 1 :=
  (extract_signExtend _ (by decide) (by decide)).trans <|
  (extract_append_hi _ _ 10 1).trans <| (extract_append_hi _ _ 6 1).trans <|
  (extract_append_hi _ _ 0 1).trans (extract_append_lo _ _)

theorem extract_12_1_immB (w : Word) : (immB w).extractLsb' 12 1 = w.extractLsb' 31 1 :=
  (extract_signExtend _ (by decide) (by decide)).trans <|
  (extract_append_hi _ _ 11 1).trans <| (extract_append_hi _ _ 7 1).trans <|
  (extract_append_hi _ _ 1 1).trans <| (extract_append_hi _ _ 0 1).trans (extract_self _)

theorem extract_12_20_immU (w : Word) : (immU w).extractLsb' 12 20 = w.extractLsb' 12 20 :=
  (extract_append_hi _ _ 0 20).trans (extract_self _)

theorem extract_1_10_immJ (w : Word) : (immJ w).extractLsb' 1 10 = w.extractLsb' 21 10 :=
  (extract_signExtend _ (by decide) (by decide)).trans <|
  (extract_append_hi _ _ 0 10).trans (extract_append_lo _ _)

theorem extract_11_1_immJ (w : Word) : (immJ w).extractLsb' 11 1 = w.extractLsb' 20 1 :=
  (extract_signExtend _ (by decide) (by decide)).trans <|
  (extract_append_hi _ _ 10 1).trans <| (extract_append_hi _ _ 0 1).trans (extract_append_lo _ _)

theorem extract_12_8_immJ (w : Word) : (immJ w).extractLsb' 12 8 = w.extractLsb' 12 8 :=
  (extract_signExtend _ (by decide) (by decide)).trans <|
  (extract_append_hi _ _ 11 8).trans <| (extract_append_hi _ _ 1 8).trans <|
  (extract_append_hi _ _ 0 8).trans (extract_append_lo _ _)

theorem extract_20_1_immJ (w : Word) : (immJ w).extractLsb' 20 1 = w.extractLsb' 31 1 :=
  (extract_signExtend _ (by decide) (by decide)).trans <|
  (extract_append_hi _ _ 19 1).trans <| (extract_append_hi _ _ 9 1).trans <|
  (extract_append_hi _ _ 8 1).trans <| (extract_append_hi _ _ 0 1).trans (extract_self _)

/-! ## A word is its fields put together (R302 to R307) -/

section Formats
variable {w : Word} {op f7 : BitVec 7} {f3 : BitVec 3}

theorem encR_fields (h7 : funct7Of w = f7) (h3 : funct3Of w = f3) (hop : opcodeOf w = op) :
    encR f7 (rs2Of w) (rs1Of w) f3 (rdOf w) op = w := by
  subst h7 h3 hop
  unfold encR funct7Of rs2Of rs1Of funct3Of rdOf opcodeOf
  rw [extract_glue w 20 7 5, extract_glue w 15 12 5, extract_glue w 12 17 3,
    extract_glue w 7 20 5, extract_glue w 0 25 7, extract_self]

theorem encI_fields (h3 : funct3Of w = f3) (hop : opcodeOf w = op) :
    encI (csrnoOf w) (rs1Of w) f3 (rdOf w) op = w := by
  subst h3 hop
  unfold encI csrnoOf rs1Of funct3Of rdOf opcodeOf
  rw [extract_glue w 15 12 5, extract_glue w 12 17 3, extract_glue w 7 20 5,
    extract_glue w 0 25 7, extract_self]

theorem encI_immI (h3 : funct3Of w = f3) (hop : opcodeOf w = op) :
    encI (low12 (immI w)) (rs1Of w) f3 (rdOf w) op = w := by
  rw [low12_immI, encI_fields h3 hop]

theorem encS_immS (h3 : funct3Of w = f3) (hop : opcodeOf w = op) :
    encS (immS w) (rs2Of w) (rs1Of w) f3 op = w := by
  rw [encS, extract_5_7_immS, extract_0_5_immS]
  exact encR_fields rfl h3 hop

theorem encB_immB (h3 : funct3Of w = f3) (hop : opcodeOf w = op) :
    encB (immB w) (rs2Of w) (rs1Of w) f3 op = w := by
  subst h3 hop
  unfold encB rs2Of rs1Of funct3Of opcodeOf
  rw [extract_12_1_immB, extract_5_6_immB, extract_1_4_immB, extract_11_1_immB,
    extract_glue w 25 1 6, extract_glue w 20 7 5, extract_glue w 15 12 5, extract_glue w 12 17 3,
    extract_glue w 8 20 4, extract_glue w 7 24 1, extract_glue w 0 25 7, extract_self]

theorem encU_immU (hop : opcodeOf w = op) : encU (immU w) (rdOf w) op = w := by
  subst hop
  unfold encU rdOf opcodeOf
  rw [extract_12_20_immU, extract_glue w 7 20 5, extract_glue w 0 25 7, extract_self]

theorem encJ_immJ (hop : opcodeOf w = op) : encJ (immJ w) (rdOf w) op = w := by
  subst hop
  unfold encJ rdOf opcodeOf
  rw [extract_20_1_immJ, extract_1_10_immJ, extract_11_1_immJ, extract_12_8_immJ,
    extract_glue w 21 1 10, extract_glue w 20 11 1, extract_glue w 12 12 8, extract_glue w 7 20 5,
    extract_glue w 0 25 7, extract_self]

/-- The field `w[31:20]` of FENCE is `fm`, `pred` and `succ` (R336). -/
theorem fence_fields (w : Word) : fmOf w ++ predOf w ++ succOf w = csrnoOf w := by
  unfold fmOf predOf succOf csrnoOf
  rw [extract_glue w 24 4 4, extract_glue w 20 8 4]

end Formats

end Sys2Proof
end

section
/-! PROOFS. The decoder and the encoder undo each other: from a well-formed instruction, format by
format, and from a word, sub-decoder by sub-decoder (R320 to R330, R339). -/

namespace Sys2Proof

/-! ## From an instruction to its word and back -/

/-- The I immediate of an R-shaped word is made of its two upper fields. -/
@[simp] theorem immI_encR (f7 op : BitVec 7) (f3 : BitVec 3) (rs2 rs1 rd : Reg) :
    immI (encR f7 rs2 rs1 f3 rd op) = (f7 ++ rs2).signExtend 32 := by
  have hglue : (encR f7 rs2 rs1 f3 rd op).extractLsb' 20 12 =
      funct7Of (encR f7 rs2 rs1 f3 rd op) ++ rs2Of (encR f7 rs2 rs1 f3 rd op) :=
    (extract_glue _ 20 7 5).symm
  rw [immI, hglue, funct7Of_encR, rs2Of_encR]

/-- A field of a field of a word is a field of the word. -/
theorem extract_extract {w : Nat} (x : BitVec w) (lo n k m : Nat) (h : k + m ≤ n) :
    (x.extractLsb' lo n).extractLsb' k m = x.extractLsb' (lo + k) m := by
  apply BitVec.eq_of_getLsbD_eq
  intro j hj
  have hin : k + j < n := by omega
  simp only [BitVec.getLsbD_extractLsb', hin, decide_true, Bool.true_and, Nat.add_assoc]

theorem fmOf_eq (w : Word) : fmOf w = (csrnoOf w).extractLsb' 8 4 :=
  (extract_extract w 20 12 8 4 (by decide)).symm

theorem predOf_eq (w : Word) : predOf w = (csrnoOf w).extractLsb' 4 4 :=
  (extract_extract w 20 12 4 4 (by decide)).symm

theorem succOf_eq (w : Word) : succOf w = (csrnoOf w).extractLsb' 0 4 :=
  (extract_extract w 20 12 0 4 (by decide)).symm

section Fence
variable (fm pred succ : BitVec 4) (rs1 rd : Reg) (f3 : BitVec 3) (op : BitVec 7)

@[simp] theorem fmOf_encI : fmOf (encI (fm ++ pred ++ succ) rs1 f3 rd op) = fm := by
  rw [fmOf_eq, csrnoOf_encI]
  exact (extract_append_hi _ succ 4 4).trans <|
    (extract_append_hi fm pred 0 4).trans (extract_self fm)

@[simp] theorem predOf_encI : predOf (encI (fm ++ pred ++ succ) rs1 f3 rd op) = pred := by
  rw [predOf_eq, csrnoOf_encI]
  exact (extract_append_hi _ succ 0 4).trans (extract_append_lo fm pred)

@[simp] theorem succOf_encI : succOf (encI (fm ++ pred ++ succ) rs1 f3 rd op) = succ := by
  rw [succOf_eq, csrnoOf_encI, extract_append_lo]

end Fence

/-- An encoded well-formed instruction decodes to itself (R339). -/
theorem decode_encode {i : Instr} (h : i.wellFormed = true) : decode (encode i) = some i := by
  cases i with
  | lui rd imm | auipc rd imm => simp [encode, decode, immU_encU _ _ h]
  | jal rd imm => simp [encode, decode, immJ_encJ _ _ h]
  | jalr rd rs1 imm => simp [encode, decode, signExtend_low12 h]
  | beq rs1 rs2 imm | bne rs1 rs2 imm | blt rs1 rs2 imm | bge rs1 rs2 imm | bltu rs1 rs2 imm
  | bgeu rs1 rs2 imm => simp [encode, decode, decodeBranch, immB_encB _ _ _ _ h]
  | lb rd rs1 imm | lh rd rs1 imm | lw rd rs1 imm | lbu rd rs1 imm | lhu rd rs1 imm =>
    simp [encode, decode, decodeLoad, signExtend_low12 h]
  | sb rs1 rs2 imm | sh rs1 rs2 imm | sw rs1 rs2 imm =>
    simp [encode, decode, decodeStore, immS_encS _ _ _ _ h]
  | addi rd rs1 imm | slti rd rs1 imm | sltiu rd rs1 imm | xori rd rs1 imm | ori rd rs1 imm
  | andi rd rs1 imm => simp [encode, decode, decodeOpImm, signExtend_low12 h]
  | slli rd rs1 shamt | srli rd rs1 shamt | srai rd rs1 shamt =>
    simp [encode, decode, decodeOpImm]
  | add | sub | sll | slt | sltu | xor_ | srl | sra | or_ | and_ => simp [encode, decode, decodeOp]
  | fence fm pred succ rs1 rd => simp [encode, decode, decodeMiscMem]
  | fencei rd rs1 imm => simp [encode, decode, decodeMiscMem, signExtend_low12 h]
  | ecall | ebreak => decide
  | csrrw | csrrs | csrrc | csrrwi | csrrsi | csrrci => simp [encode, decode, decodeSystem]

/-- The accessors of a well-formed instruction read the fields of its word (R339). -/
theorem accessors_eq_wordAccessors {i : Instr} (h : i.wellFormed = true) :
    accessors i = wordAccessors i (encode i) := by
  cases i with
  | lui rd imm | auipc rd imm =>
    simp [accessors, wordAccessors, bitfieldView, formatOf, encode, immU_encU _ _ h]
  | jal rd imm => simp [accessors, wordAccessors, bitfieldView, formatOf, encode, immJ_encJ _ _ h]
  | beq rs1 rs2 imm | bne rs1 rs2 imm | blt rs1 rs2 imm | bge rs1 rs2 imm | bltu rs1 rs2 imm
  | bgeu rs1 rs2 imm =>
    simp [accessors, wordAccessors, bitfieldView, formatOf, encode, immB_encB _ _ _ _ h]
  | sb rs1 rs2 imm | sh rs1 rs2 imm | sw rs1 rs2 imm =>
    simp [accessors, wordAccessors, bitfieldView, formatOf, encode, immS_encS _ _ _ _ h]
  | jalr rd rs1 imm | lb rd rs1 imm | lh rd rs1 imm | lw rd rs1 imm | lbu rd rs1 imm
  | lhu rd rs1 imm | addi rd rs1 imm | slti rd rs1 imm | sltiu rd rs1 imm | xori rd rs1 imm
  | ori rd rs1 imm | andi rd rs1 imm | fencei rd rs1 imm =>
    simp [accessors, wordAccessors, bitfieldView, formatOf, encode, signExtend_low12 h]
  | add | sub | sll | slt | sltu | xor_ | srl | sra | or_ | and_ | slli | srli | srai | fence =>
    simp [accessors, wordAccessors, bitfieldView, formatOf, encode]
  | ecall | ebreak => decide
  | csrrw | csrrs | csrrc | csrrwi | csrrsi | csrrci =>
    simp [accessors, wordAccessors, bitfieldView, formatOf, encode, viewCsr, viewCsrImm, viewI]

/-! ## From a word to its instruction and back -/

section Word
variable {w : Word} {i : Instr}

theorem encode_decodeBranch (hop : opcodeOf w = 0b1100011#7) (h : decodeBranch w = some i) :
    encode i = w ∧ i.wellFormed = true := by
  unfold decodeBranch at h
  split at h <;> cases h <;> exact ⟨encB_immB ‹_› hop, fits13_immB w⟩

theorem encode_decodeLoad (hop : opcodeOf w = 0b0000011#7) (h : decodeLoad w = some i) :
    encode i = w ∧ i.wellFormed = true := by
  unfold decodeLoad at h
  split at h <;> cases h <;> exact ⟨encI_immI ‹_› hop, fits12_immI w⟩

theorem encode_decodeStore (hop : opcodeOf w = 0b0100011#7) (h : decodeStore w = some i) :
    encode i = w ∧ i.wellFormed = true := by
  unfold decodeStore at h
  split at h <;> cases h <;> exact ⟨encS_immS ‹_› hop, fits12_immS w⟩

theorem encode_decodeOpImm (hop : opcodeOf w = 0b0010011#7) (h : decodeOpImm w = some i) :
    encode i = w ∧ i.wellFormed = true := by
  unfold decodeOpImm at h
  split at h
  case h_7 h3 =>
    split at h <;> cases h
    exact ⟨encR_fields ‹_› h3 hop, rfl⟩
  case h_8 h3 =>
    split at h
    · cases h; exact ⟨encR_fields ‹_› h3 hop, rfl⟩
    · split at h <;> cases h
      exact ⟨encR_fields ‹_› h3 hop, rfl⟩
  all_goals cases h <;> exact ⟨encI_immI ‹_› hop, fits12_immI w⟩

theorem encode_decodeOp (hop : opcodeOf w = 0b0110011#7) (h : decodeOp w = some i) :
    encode i = w ∧ i.wellFormed = true := by
  unfold decodeOp at h
  split at h <;> cases h <;> exact ⟨encR_fields ‹_› ‹_› hop, rfl⟩

theorem encode_decodeMiscMem (hop : opcodeOf w = 0b0001111#7) (h : decodeMiscMem w = some i) :
    encode i = w ∧ i.wellFormed = true := by
  unfold decodeMiscMem at h
  split at h <;> cases h
  · exact ⟨by rw [encode, fence_fields, encI_fields ‹_› hop], rfl⟩
  · exact ⟨encI_immI ‹_› hop, fits12_immI w⟩

theorem encode_decodeSystem (hop : opcodeOf w = 0b1110011#7) (h : decodeSystem w = some i) :
    encode i = w ∧ i.wellFormed = true := by
  unfold decodeSystem at h
  split at h
  case h_1 =>
    split at h
    · cases h; subst w; decide
    · split at h <;> cases h; subst w; decide
  all_goals cases h <;> exact ⟨encI_fields ‹_› hop, rfl⟩

/-- A word that decodes is the encoding of what it decodes to, which is well formed. -/
theorem encode_of_decode (h : decode w = some i) : encode i = w ∧ i.wellFormed = true := by
  unfold decode at h
  split at h
  · cases h; exact ⟨encU_immU ‹_›, fitsUpper_immU w⟩
  · cases h; exact ⟨encU_immU ‹_›, fitsUpper_immU w⟩
  · cases h; exact ⟨encJ_immJ ‹_›, fits21_immJ w⟩
  · split at h <;> cases h
    exact ⟨encI_immI ‹_› ‹_›, fits12_immI w⟩
  · exact encode_decodeBranch ‹_› h
  · exact encode_decodeLoad ‹_› h
  · exact encode_decodeStore ‹_› h
  · exact encode_decodeOpImm ‹_› h
  · exact encode_decodeOp ‹_› h
  · exact encode_decodeMiscMem ‹_› h
  · exact encode_decodeSystem ‹_› h
  · cases h

end Word
end Sys2Proof
end

section
/-! PROOFS. The decoder against the rows of spec/opcode_table.json and against the exclusions of the
opcode map (R320 to R334). -/

namespace Sys2Proof

/-- An encoded instruction matches its own row: the family of Laws/PerInstr.lean, by format. -/
theorem encode_matches_row (i : Instr) : (rowOf i).matches (encode i) := by
  cases i with
  | lui | auipc => exact Laws.EncodesToItsRow.rowU _ _ _
  | jal => exact Laws.EncodesToItsRow.rowJ _ _ _
  | beq | bne | blt | bge | bltu | bgeu => exact Laws.EncodesToItsRow.rowB _ _ _ _ _
  | sb | sh | sw => exact Laws.EncodesToItsRow.rowS _ _ _ _ _
  | slli | srli | srai | add | sub | sll | slt | sltu | xor_ | srl | sra | or_ | and_ =>
    exact Laws.EncodesToItsRow.rowR _ _ _ _ _ _
  | ecall => exact Laws.EncodesToItsRow.ecall
  | ebreak => exact Laws.EncodesToItsRow.ebreak
  | _ => exact Laws.EncodesToItsRow.rowI _ _ _ _ _

/-- Words equal under a mask are equal in a field that the mask keeps whole. -/
theorem extract_eq_of_mask_eq {w u m : Word} {lo n : Nat} (h : w &&& m = u &&& m)
    (hm : m.extractLsb' lo n = BitVec.allOnes n) : w.extractLsb' lo n = u.extractLsb' lo n := by
  have hfield := congrArg (BitVec.extractLsb' lo n) h
  rwa [BitVec.extractLsb'_and, BitVec.extractLsb'_and, hm, BitVec.and_allOnes,
    BitVec.and_allOnes] at hfield

section Masks
variable {w u : Word}

theorem opcodeOf_eq_of_mask (h : w &&& 0x0000007F#32 = u &&& 0x0000007F#32) :
    opcodeOf w = opcodeOf u :=
  extract_eq_of_mask_eq h (by decide)

theorem funct3Of_eq_of_mask (h : w &&& 0x0000707F#32 = u &&& 0x0000707F#32) :
    opcodeOf w = opcodeOf u ∧ funct3Of w = funct3Of u :=
  ⟨extract_eq_of_mask_eq h (by decide), extract_eq_of_mask_eq h (by decide)⟩

theorem funct7Of_eq_of_mask (h : w &&& 0xFE00707F#32 = u &&& 0xFE00707F#32) :
    opcodeOf w = opcodeOf u ∧ funct3Of w = funct3Of u ∧ funct7Of w = funct7Of u :=
  ⟨extract_eq_of_mask_eq h (by decide), extract_eq_of_mask_eq h (by decide),
    extract_eq_of_mask_eq h (by decide)⟩

end Masks

/-- A word that matches a row decodes to an instruction of that row: it shares with the words of the
row the fields by which the decoder chooses. -/
theorem decode_row_of_matches {w : Word} {j : Instr} (h : (rowOf j).matches w) :
    (decode w).map rowOf = some (rowOf j) := by
  have hsame : w &&& (rowOf j).mask = encode j &&& (rowOf j).mask :=
    h.trans (encode_matches_row j).symm
  cases j with
  | lui | auipc | jal =>
    have hop := opcodeOf_eq_of_mask hsame
    simp [decode, hop, encode, rowOf]
  | jalr =>
    obtain ⟨hop, hf3⟩ := funct3Of_eq_of_mask hsame
    simp [decode, hop, hf3, encode, rowOf]
  | beq | bne | blt | bge | bltu | bgeu =>
    obtain ⟨hop, hf3⟩ := funct3Of_eq_of_mask hsame
    simp [decode, decodeBranch, hop, hf3, encode, rowOf]
  | lb | lh | lw | lbu | lhu =>
    obtain ⟨hop, hf3⟩ := funct3Of_eq_of_mask hsame
    simp [decode, decodeLoad, hop, hf3, encode, rowOf]
  | sb | sh | sw =>
    obtain ⟨hop, hf3⟩ := funct3Of_eq_of_mask hsame
    simp [decode, decodeStore, hop, hf3, encode, rowOf]
  | addi | slti | sltiu | xori | ori | andi =>
    obtain ⟨hop, hf3⟩ := funct3Of_eq_of_mask hsame
    simp [decode, decodeOpImm, hop, hf3, encode, rowOf]
  | slli | srli | srai =>
    obtain ⟨hop, hf3, hf7⟩ := funct7Of_eq_of_mask hsame
    simp [decode, decodeOpImm, hop, hf3, hf7, encode, rowOf]
  | add | sub | sll | slt | sltu | xor_ | srl | sra | or_ | and_ =>
    obtain ⟨hop, hf3, hf7⟩ := funct7Of_eq_of_mask hsame
    simp [decode, decodeOp, hop, hf3, hf7, encode, rowOf]
  | fence | fencei =>
    obtain ⟨hop, hf3⟩ := funct3Of_eq_of_mask hsame
    simp [decode, decodeMiscMem, hop, hf3, encode, rowOf]
  | csrrw | csrrs | csrrc | csrrwi | csrrsi | csrrci =>
    obtain ⟨hop, hf3⟩ := funct3Of_eq_of_mask hsame
    simp [decode, decodeSystem, hop, hf3, encode, rowOf]
  | ecall | ebreak =>
    obtain rfl : w = encode _ := (BitVec.and_allOnes.symm.trans hsame).trans BitVec.and_allOnes
    rw [decode_encode rfl, Option.map_some]

/-- No instruction's word is outside the opcode map. -/
theorem encode_not_outside (i : Instr) : ¬ Machine.OutsideOpcodeMap (encode i) := by
  unfold Machine.OutsideOpcodeMap
  cases i with
  | ecall | ebreak => decide
  | _ => simp [encode]

/-- A word outside the map does not decode, since a word that decodes is an encoding. -/
theorem decode_none_of_outside {w : Word} (h : Machine.OutsideOpcodeMap w) : decode w = none := by
  refine Option.eq_none_iff_forall_ne_some.mpr fun i hi => encode_not_outside i ?_
  rwa [(encode_of_decode hi).1]

/-- Every opcode of the map ends in 11 (R332). -/
theorem outside_of_lowBits {w : Word} (h : w.extractLsb' 0 2 ≠ 0b11#2) :
    Machine.OutsideOpcodeMap w := by
  refine .inl fun hop => h ?_
  have hlow : w.extractLsb' 0 2 = (opcodeOf w).extractLsb' 0 2 :=
    (extract_extract w 0 7 0 2 (by decide)).symm
  rw [hlow]
  exact (by decide : ∀ op ∈ _, BitVec.extractLsb' 0 2 op = 0b11#2) _ hop

end Sys2Proof
end

section
/-! PROOFS. The obligations of 30_encoding.md. -/

namespace Sys2Proof.Machine

/-- Settles O1, format by format. -/
theorem decodeInvertsEncode : Obligations.DecodeInvertsEncode :=
  fun _ h => ⟨decode_encode h, accessors_eq_wordAccessors h⟩

/-- Settles O2: every sub-decoder's fields and immediate, put together, are the word. -/
theorem encodeInvertsDecode : Obligations.EncodeInvertsDecode :=
  fun _ _ h => encode_of_decode h

/-- Settles O3: a word that decodes is an encoding, so it matches its instruction's row; a word that
matches a row decodes to an instruction of that row, and to one only. -/
theorem decodeAgreesWithOpcodeTable : Obligations.DecodeAgreesWithOpcodeTable := by
  refine ⟨fun w i hi => ⟨?_, fun j hj => ?_⟩, fun w hw j hj => ?_⟩
  · obtain ⟨rfl, -⟩ := encode_of_decode hi
    exact encode_matches_row i
  · have hrow := decode_row_of_matches hj
    rw [hi, Option.map_some] at hrow
    exact (Option.some.inj hrow).symm
  · have hrow := decode_row_of_matches hj
    rw [hw] at hrow
    cases hrow

/-- Settles O4: a word that decodes is an encoding, and no encoding is outside the map. -/
theorem wordsOutsideTheMapAreInvalid : Obligations.WordsOutsideTheMapAreInvalid := by
  rintro s w hb rfl hw
  refine step_invalidEncoding hb (decode_none_of_outside ?_)
  obtain hzero | hones | hlow | hout := hw
  · exact outside_of_lowBits (by rw [hzero]; decide)
  · exact .inl (by rw [hones]; decide)
  · exact outside_of_lowBits hlow
  · exact hout

/-- Settles O5, by the weight of each field in the immediate. -/
theorem immediatesAreSignedFieldValues : Obligations.ImmediatesAreSignedFieldValues :=
  fun w => ⟨⟨immI_toInt w, immI_range w⟩, ⟨immS_toInt w, immS_range w⟩,
    ⟨immB_toInt w, (immB_range w).1, (immB_range w).2, immB_even w⟩, immU_toNat w,
    immJ_toInt w, (immJ_range w).1, (immJ_range w).2, immJ_even w⟩

end Sys2Proof.Machine
end

section
/-! PROOFS. The words of the upper immediates, the frame of an instruction that writes one register,
and the sum of AUIPC as a sum of numbers. -/

namespace Sys2Proof

theorem decode_lui {w : Word} (h : opcodeOf w = 0b0110111#7) :
    decode w = some (.lui (rdOf w) (immU w)) := by
  simp only [decode, h]

theorem decode_auipc {w : Word} (h : opcodeOf w = 0b0010111#7) :
    decode w = some (.auipc (rdOf w) (immU w)) := by
  simp only [decode, h]

end Sys2Proof

namespace Sys2Proof.Machine

/-- The frame of a register instruction, from the parts of the state it keeps whole. -/
theorem onlyRegWritten_of_eq {s t : State} {rd : Reg} {v : Word} (hx : RegWritten s t rd v)
    (hcsr : t.csr = s.csr) (hmem : t.mem = s.mem) : OnlyRegWritten s t rd v :=
  ⟨hx, fun c => by rw [State.csrRead, hcsr, State.csrRead], by rw [hmem], fun a => by rw [hmem]⟩

/-- An instruction that is a register write followed by `pc <- A + 4` changes nothing else. -/
theorem writesReg_of_writeRegNext {i : Instr} {s : State} {rd : Reg} {v : Word}
    (h : exec i s = writeRegNext rd v s) : WritesReg i s rd v (s.pc + 4#32) := by
  obtain ⟨t, ht, hpc, hcsr, hmem, -, hx⟩ := writeRegNext_spec rd v s
  exact ⟨t, h.trans ht, onlyRegWritten_of_eq hx hcsr hmem, hpc⟩

/-- The pc-relative sum is the sum of the two numbers modulo 2^32 (R109). -/
theorem pcRel_eq_ofNat (imm : Word) (s : State) :
    pcRel imm s = BitVec.ofNat 32 (s.pc.toNat + imm.toNat) := by
  rw [pcRel, BitVec.ofNat_add, BitVec.ofNat_toNat, BitVec.ofNat_toNat, BitVec.setWidth_eq,
    BitVec.setWidth_eq]

end Sys2Proof.Machine
end

section
/-! PROOFS. The obligations of 40_upper_immediate.md. -/

namespace Sys2Proof.Machine

/-- Settles O31: LUI is a plain register write of the immediate its word holds. -/
theorem luiLoadsTheUpperImmediate : Obligations.LuiLoadsTheUpperImmediate :=
  ⟨fun _ => decode_lui, immU_toNat, fun _ _ _ => writesReg_of_writeRegNext rfl⟩

/-- Settles O32: AUIPC is a plain register write of the pc-relative sum. -/
theorem auipcAddsToItsOwnAddress : Obligations.AuipcAddsToItsOwnAddress := by
  refine ⟨fun _ => decode_auipc, fun rd imm s => ?_⟩
  rw [← pcRel_eq_ofNat]
  exact writesReg_of_writeRegNext rfl

end Sys2Proof.Machine
end

section
/-! PROOFS. The words of the jumps, the frame of a link-and-jump, the two jump targets as numbers,
and that a control transfer always completes. -/

namespace Sys2Proof

theorem decode_jal {w : Word} (h : opcodeOf w = 0b1101111#7) :
    decode w = some (.jal (rdOf w) (immJ w)) := by
  simp only [decode, h]

theorem decode_jalr {w : Word} (h : opcodeOf w = 0b1100111#7) (hf : funct3Of w = 0b000#3) :
    decode w = some (.jalr (rdOf w) (rs1Of w) (immI w)) := by
  simp only [decode, h, if_pos hf]

end Sys2Proof

namespace Sys2Proof.Machine

/-- An instruction that is a link followed by `pc <- target` changes nothing else. -/
theorem writesReg_of_jumpLink {i : Instr} {s : State} {rd : Reg} {target : Word}
    (h : exec i s = jumpLink rd target s) : WritesReg i s rd (s.pc + 4#32) target := by
  obtain ⟨t, ht, hpc, hcsr, hmem, -, hx⟩ := jumpLink_spec rd target s
  exact ⟨t, h.trans ht, onlyRegWritten_of_eq hx hcsr hmem, hpc⟩

/-- The pc-relative sum with the immediate read as a signed number (R107, R109). -/
theorem pcRel_eq_ofInt (imm : Word) (s : State) :
    pcRel imm s = BitVec.ofInt 32 (s.pc.toNat + imm.toInt) := by
  rw [pcRel, BitVec.ofInt_add, BitVec.ofInt_natCast, BitVec.ofNat_toNat, BitVec.setWidth_eq,
    BitVec.ofInt_toInt]

/-- Clearing bit 0 is a shift right and back. -/
theorem clearBit0_eq_shift (t : Word) : clearBit0 t = (t >>> 1) <<< 1 := by
  have hmask : 0xFFFFFFFE#32 = ~~~1#32 := rfl
  ext i hi
  rw [clearBit0, hmask]
  cases i with
  | zero => simp
  | succ i => simp [Nat.add_comm, BitVec.getLsbD_eq_getElem hi, -BitVec.reduceNot]

/-- Clearing bit 0 rounds down to even. -/
theorem clearBit0_eq_ofNat (t : Word) : clearBit0 t = BitVec.ofNat 32 (t.toNat / 2 * 2) := by
  apply BitVec.eq_of_toNat_eq
  rw [clearBit0_eq_shift, BitVec.toNat_shiftLeft, BitVec.toNat_ushiftRight,
    Nat.shiftRight_eq_div_pow, Nat.shiftLeft_eq, BitVec.toNat_ofNat]

/-- A control transfer has no check of its own: it completes in every state (R422). -/
theorem exec_transfer_completes {i : Instr} (s : State)
    (h : formatOf i = .B ∨ formatOf i = .J ∨ ∃ rd rs1 imm, i = .jalr rd rs1 imm) :
    ∃ t, exec i s = .next t := by
  cases i with
  | beq | bne | blt | bge | bltu | bgeu => exact ⟨_, branchIf_spec _ _ s⟩
  | jal | jalr => exact ⟨_, rfl⟩
  | _ => simp [formatOf] at h

end Sys2Proof.Machine
end

section
/-! PROOFS. The obligations of 41_jumps.md. -/

namespace Sys2Proof.Machine

/-- Settles O33: JAL is a link and a jump to the pc-relative sum. -/
theorem jalLinksAndJumpsRelative : Obligations.JalLinksAndJumpsRelative := by
  refine ⟨fun _ => decode_jal, fun rd imm s => ?_⟩
  rw [← pcRel_eq_ofInt]
  exact writesReg_of_jumpLink rfl

/-- Settles O34: JALR is a link and a jump to the sum, taken before the link, with bit 0 cleared. -/
theorem jalrLinksAndJumpsToTheEvenSum : Obligations.JalrLinksAndJumpsToTheEvenSum := by
  refine ⟨fun _ => decode_jalr, fun rd rs1 imm s => ?_⟩
  rw [← clearBit0_eq_ofNat]
  exact writesReg_of_jumpLink rfl

/-- Settles O35: the transfer itself completes, and the bounds are those of the next fetch. -/
theorem targetsAreCheckedOnlyAtTheNextFetch : Obligations.TargetsAreCheckedOnlyAtTheNextFetch := by
  intro i s h
  obtain ⟨t, ht⟩ := exec_transfer_completes s h
  exact ⟨t, ht, step_outOfBounds⟩

end Sys2Proof.Machine
end

section
/-! PROOFS. The words of the branches, the negated comparisons as statements on numbers, and the
common branch rule (R440) with its predicate left open. -/

namespace Sys2Proof

theorem decode_branch {w : Word} (h : opcodeOf w = 0b1100011#7) : decode w = decodeBranch w := by
  simp only [decode, h]

end Sys2Proof

namespace Sys2Proof.Machine

theorem not_cmpEq_iff (a b : Word) : (!cmpEq a b) = true ↔ a ≠ b := by
  rw [Bool.not_eq_true', ← Bool.not_eq_true, cmpEq_iff]

theorem not_cmpLtS_iff (a b : Word) : (!cmpLtS a b) = true ↔ a.toInt ≥ b.toInt := by
  rw [Bool.not_eq_true', ← Bool.not_eq_true, cmpLtS_iff, Int.not_lt, ge_iff_le]

theorem not_cmpLtU_iff (a b : Word) : (!cmpLtU a b) = true ↔ a.toNat ≥ b.toNat := by
  rw [Bool.not_eq_true', ← Bool.not_eq_true, cmpLtU_iff, Nat.not_lt, ge_iff_le]

/-- An instruction whose words are those of its funct3, and which moves the pc by a test that
decides `cond`, follows the common branch rule (R440). -/
theorem branchRule_of_branchIf {mk : Reg → Reg → Word → Instr} {f3 : BitVec 3}
    {cond : Word → Word → Prop} (test : Word → Word → Bool)
    (hdecode : ∀ w, funct3Of w = f3 →
      decodeBranch w = some (mk (rs1Of w) (rs2Of w) (immB w)))
    (hexec : ∀ rs1 rs2 imm s,
      exec (mk rs1 rs2 imm) s = branchIf (test (s.x rs1) (s.x rs2)) imm s)
    (htest : ∀ a b, test a b = true ↔ cond a b) : BranchRule mk f3 cond := by
  refine ⟨fun w hop hf3 => (decode_branch hop).trans (hdecode w hf3), fun rs1 rs2 imm s => ?_⟩
  refine ⟨_, (hexec rs1 rs2 imm s).trans (branchIf_spec _ imm s), fun _ => rfl, fun _ => rfl,
    ⟨rfl, fun _ => rfl⟩, fun htaken => ?_, fun hnot => ?_⟩
  · exact if_pos ((htest _ _).mpr htaken)
  · exact if_neg fun ht => hnot ((htest _ _).mp ht)

end Sys2Proof.Machine
end

section
/-! PROOFS. The obligations of 42_branches.md. -/

namespace Sys2Proof.Machine

/-- Settles O36: each branch is the common rule with its own funct3 and comparison. -/
theorem branchesFollowTheirPredicates : Obligations.BranchesFollowTheirPredicates := by
  refine ⟨branchRule_of_branchIf cmpEq ?_ (fun _ _ _ _ => rfl) cmpEq_iff,
    branchRule_of_branchIf (!cmpEq · ·) ?_ (fun _ _ _ _ => rfl) not_cmpEq_iff,
    branchRule_of_branchIf cmpLtS ?_ (fun _ _ _ _ => rfl) cmpLtS_iff,
    branchRule_of_branchIf (!cmpLtS · ·) ?_ (fun _ _ _ _ => rfl) not_cmpLtS_iff,
    branchRule_of_branchIf cmpLtU ?_ (fun _ _ _ _ => rfl) cmpLtU_iff,
    branchRule_of_branchIf (!cmpLtU · ·) ?_ (fun _ _ _ _ => rfl) not_cmpLtU_iff⟩
  all_goals
    intro w hf3
    simp only [decodeBranch, hf3]

end Sys2Proof.Machine
end

section
/-! PROOFS. The words of the loads, the numbers that bytes put together stand for, what the host sees
of an instruction that fails, and the common load rule (R460) with its value left open. -/

namespace Sys2Proof

theorem decode_load {w : Word} (h : opcodeOf w = 0b0000011#7) : decode w = decodeLoad w := by
  simp only [decode, h]

/-- Put above `m` bits, a field counts `2 ^ m` fold. -/
theorem toNat_append_eq {n m : Nat} (x : BitVec n) (y : BitVec m) :
    (x ++ y).toNat = x.toNat * 2 ^ m + y.toNat := by
  rw [BitVec.toNat_append, ← Nat.shiftLeft_add_eq_or_of_lt y.isLt, Nat.shiftLeft_eq]

theorem wordOfBytes_toNat (b0 b1 b2 b3 : Byte) : (wordOfBytes b0 b1 b2 b3).toNat =
    b3.toNat * 16777216 + b2.toNat * 65536 + b1.toNat * 256 + b0.toNat := by
  rw [wordOfBytes, toNat_append_eq, toNat_append_eq, toNat_append_eq]
  omega

end Sys2Proof

namespace Sys2Proof.Machine

/-! ## The loaded values as numbers (R206) -/

section Reads
variable (m : Memory) (a : Nat)

theorem read8_sext : (m.read8 a).signExtend 32 = BitVec.ofInt 32 (m.byte a).toInt := rfl

theorem read8_zext : (m.read8 a).setWidth 32 = BitVec.ofNat 32 (m.byte a).toNat :=
  (BitVec.ofNat_toNat 32 _).symm

theorem read16_sext : (m.read16 a).signExtend 32 =
    BitVec.ofInt 32 ((m.byte (a + 1)).toInt * 256 + (m.byte a).toNat) :=
  congrArg (BitVec.ofInt 32) (toInt_append_of_pos (by decide) _ _)

theorem read16_zext : (m.read16 a).setWidth 32 =
    BitVec.ofNat 32 ((m.byte (a + 1)).toNat * 256 + (m.byte a).toNat) :=
  (BitVec.ofNat_toNat 32 _).symm.trans (congrArg (BitVec.ofNat 32) (toNat_append_eq _ _))

theorem read32_eq_ofNat : m.read32 a = BitVec.ofNat 32 ((m.byte (a + 3)).toNat * 16777216 +
    (m.byte (a + 2)).toNat * 65536 + (m.byte (a + 1)).toNat * 256 + (m.byte a).toNat) := by
  rw [← wordOfBytes_toNat, BitVec.ofNat_toNat, BitVec.setWidth_eq, Memory.read32]

end Reads

/-- The host's step of an instruction whose execution fails reports that failure and keeps the
state (R704). -/
theorem failsWith_of_fault {i : Instr} {s : State} {f : Fault} (h : exec i s = .fault f) :
    FailsWith i s f := by
  refine ⟨h, fun hb hd => ?_⟩
  simp only [hostApply, hostStep, fetchDecode_of hb hd, h]

/-- An instruction whose words are those of its funct3, and which loads by a read whose bytes have
that value, follows the common load rule (R460). -/
theorem loadRule_of_loadReg {mk : Reg → Reg → Word → Instr} {f3 : BitVec 3} {n : Nat}
    {value : (Nat → Byte) → Word} (read : Memory → Nat → Word)
    (hdecode : ∀ w, funct3Of w = f3 → decodeLoad w = some (mk (rdOf w) (rs1Of w) (immI w)))
    (hexec : ∀ rd rs1 imm s, exec (mk rd rs1 imm) s = loadReg n read rd rs1 imm s)
    (hread : ∀ m a, read m a = value fun k => m.byte (a + k)) : LoadRule mk f3 n value := by
  refine ⟨fun w hop hf3 => (decode_load hop).trans (hdecode w hf3),
    fun rd rs1 imm s => ⟨fun hin => ?_, fun hout => ?_⟩⟩
  · rw [← hread]
    exact writesReg_of_writeRegNext ((hexec ..).trans (loadReg_inBounds read rd hin))
  · exact failsWith_of_fault ((hexec ..).trans (loadReg_outOfBounds read rd hout))

end Sys2Proof.Machine
end

section
/-! PROOFS. The obligations of 43_loads.md. -/

namespace Sys2Proof.Machine

/-- Settles O37: each load is the common rule with its own funct3, width and value. -/
theorem loadsReadAndExtend : Obligations.LoadsReadAndExtend := by
  refine ⟨loadRule_of_loadReg _ ?_ (fun _ _ _ _ => rfl) read8_sext,
    loadRule_of_loadReg _ ?_ (fun _ _ _ _ => rfl) read16_sext,
    loadRule_of_loadReg _ ?_ (fun _ _ _ _ => rfl) read32_eq_ofNat,
    loadRule_of_loadReg _ ?_ (fun _ _ _ _ => rfl) read8_zext,
    loadRule_of_loadReg _ ?_ (fun _ _ _ _ => rfl) read16_zext⟩
  all_goals
    intro w hf3
    simp only [decodeLoad, hf3]

end Sys2Proof.Machine
end

section
/-! PROOFS. The words of the stores, what a write to memory is byte by byte, and the common store
rule (R480) with its width left open. -/

namespace Sys2Proof

theorem decode_store {w : Word} (h : opcodeOf w = 0b0100011#7) : decode w = decodeStore w := by
  simp only [decode, h]

end Sys2Proof

namespace Sys2Proof.Machine

/-- A memory that is the old one after `MemWrite` holds the value's bytes and otherwise the old
ones (R207). -/
theorem memWritten_of_eq {s t : State} {a n : Nat} {v : Word}
    (hmem : t.mem = s.mem.write a n v) : MemWritten s t a n v := by
  rw [MemWritten, hmem]
  exact ⟨write_size s.mem a n v, fun _ hk => byte_write_inside s.mem a v hk,
    fun _ hb => byte_write_outside s.mem a v hb⟩

/-- An instruction whose words are those of its funct3, and which is a store of `n` bytes, follows
the common store rule (R480). -/
theorem storeRule_of_storeReg {mk : Reg → Reg → Word → Instr} {f3 : BitVec 3} {n : Nat}
    (hdecode : ∀ w, funct3Of w = f3 → decodeStore w = some (mk (rs1Of w) (rs2Of w) (immS w)))
    (hexec : ∀ rs1 rs2 imm s, exec (mk rs1 rs2 imm) s = storeReg n rs1 rs2 imm s) :
    StoreRule mk f3 n := by
  refine ⟨fun w hop hf3 => (decode_store hop).trans (hdecode w hf3),
    fun rs1 rs2 imm s => ⟨fun hin => ?_, fun hout => ?_⟩⟩
  · obtain ⟨t, ht, hpc, hregs, hcsr, hmem⟩ := storeReg_inBounds rs2 hin
    exact ⟨t, (hexec ..).trans ht, x_of_regs_eq hregs,
      fun c => by rw [State.csrRead, hcsr, State.csrRead], memWritten_of_eq hmem, hpc⟩
  · exact failsWith_of_fault ((hexec ..).trans (storeReg_outOfBounds rs2 hout))

end Sys2Proof.Machine
end

section
/-! PROOFS. The obligations of 44_stores.md. -/

namespace Sys2Proof.Machine

/-- Settles O38: each store is the common rule with its own funct3 and width. -/
theorem storesWriteTheirBytesOnly : Obligations.StoresWriteTheirBytesOnly := by
  refine ⟨storeRule_of_storeReg ?_ (fun _ _ _ _ => rfl),
    storeRule_of_storeReg ?_ (fun _ _ _ _ => rfl),
    storeRule_of_storeReg ?_ (fun _ _ _ _ => rfl)⟩
  all_goals
    intro w hf3
    simp only [decodeStore, hf3]

end Sys2Proof.Machine
end

section
/-! PROOFS. The words of the register-immediate instructions, sums, shifts and set-ifs as statements
on numbers, and the two common rules (R500) with their value left open. -/

namespace Sys2Proof

theorem decode_opImm {w : Word} (h : opcodeOf w = 0b0010011#7) : decode w = decodeOpImm w := by
  simp only [decode, h]

end Sys2Proof

namespace Sys2Proof.Machine

/-! ## The ALU results as numbers -/

theorem add_eq_ofInt (a b : Word) : a + b = BitVec.ofInt 32 (a.toInt + b.toInt) := by
  rw [BitVec.ofInt_add, BitVec.ofInt_toInt, BitVec.ofInt_toInt]

theorem shiftLeft_eq_ofNat (a : Word) (k : Nat) : a <<< k = BitVec.ofNat 32 (a.toNat * 2 ^ k) := by
  rw [← BitVec.shiftLeft_eq, BitVec.shiftLeft, Nat.shiftLeft_eq]

theorem ushiftRight_eq_ofNat (a : Word) (k : Nat) :
    a >>> k = BitVec.ofNat 32 (a.toNat / 2 ^ k) := by
  rw [← Nat.shiftRight_eq_div_pow, ← BitVec.toNat_ushiftRight, BitVec.ofNat_toNat,
    BitVec.setWidth_eq]

theorem sshiftRight_eq_ofInt (a : Word) (k : Nat) :
    a.sshiftRight k = BitVec.ofInt 32 (a.toInt / 2 ^ k) := by
  rw [BitVec.sshiftRight_eq, Int.shiftRight_eq_div_pow, Nat.cast_pow, Nat.cast_ofNat]

/-- A set-if instruction writes 1 exactly when the relation its test decides holds (R502). -/
theorem setIf_eq_ite {c : Bool} {p : Prop} [Decidable p] (h : c = true ↔ p) :
    setIf c = if p then 1#32 else 0#32 :=
  if_congr h rfl rfl

/-! ## The common rules -/

/-- An instruction whose words are those of its funct3, and which writes a result of `x[rs1]` and
the immediate that has that value, follows the common register-immediate rule (R500). -/
theorem aluImmRule_of_writeRegNext {mk : Reg → Reg → Word → Instr} {f3 : BitVec 3}
    {f : Word → Word → Word} (op : Word → Word → Word)
    (hdecode : ∀ w, funct3Of w = f3 → decodeOpImm w = some (mk (rdOf w) (rs1Of w) (immI w)))
    (hexec : ∀ rd rs1 imm s, exec (mk rd rs1 imm) s = writeRegNext rd (op (s.x rs1) imm) s)
    (hop : ∀ a imm, op a imm = f a imm) : AluImmRule mk f3 f := by
  refine ⟨fun w hopcode hf3 => (decode_opImm hopcode).trans (hdecode w hf3),
    fun rd rs1 imm s => ?_⟩
  rw [← hop]
  exact writesReg_of_writeRegNext (hexec ..)

/-- An instruction whose words are those of its funct3 and `w[31:25]`, and which writes a result of
`x[rs1]` and the shift amount that has that value, follows the common shift rule (R500). -/
theorem shiftImmRule_of_writeRegNext {mk : Reg → Reg → BitVec 5 → Instr} {f7 : BitVec 7}
    {f3 : BitVec 3} {f : Word → Nat → Word} (op : Word → Nat → Word)
    (hdecode : ∀ w, funct3Of w = f3 → funct7Of w = f7 →
      decodeOpImm w = some (mk (rdOf w) (rs1Of w) (shamtOf w)))
    (hexec : ∀ rd rs1 shamt s,
      exec (mk rd rs1 shamt) s = writeRegNext rd (op (s.x rs1) shamt.toNat) s)
    (hop : ∀ a k, op a k = f a k) : ShiftImmRule mk f7 f3 f := by
  refine ⟨fun w hopcode hf3 hf7 => (decode_opImm hopcode).trans (hdecode w hf3 hf7),
    fun rd rs1 shamt s => ?_⟩
  rw [← hop]
  exact writesReg_of_writeRegNext (hexec ..)

/-! ## The shift words that are no instruction (R326) -/

theorem outside_of_leftShift_funct7 {w : Word} (hop : opcodeOf w = 0b0010011#7)
    (hf3 : funct3Of w = 0b001#3) (hf7 : funct7Of w ≠ 0b0000000#7) : OutsideOpcodeMap w := by
  simp [OutsideOpcodeMap, hop, hf3, hf7]

theorem outside_of_rightShift_funct7 {w : Word} (hop : opcodeOf w = 0b0010011#7)
    (hf3 : funct3Of w = 0b101#3) (hlogical : funct7Of w ≠ 0b0000000#7)
    (harith : funct7Of w ≠ 0b0100000#7) : OutsideOpcodeMap w := by
  simp [OutsideOpcodeMap, hop, hf3, hlogical, harith]

/-- A word outside the opcode map does not decode, and its fetch fails with `InvalidEncoding`
(R331). -/
theorem noInstruction_of_outside {w : Word} (h : OutsideOpcodeMap w) : NoInstruction w := by
  refine ⟨decode_none_of_outside h, ?_⟩
  rintro s hb rfl
  exact step_invalidEncoding hb (decode_none_of_outside h)

end Sys2Proof.Machine
end

section
/-! PROOFS. The obligations of 45_alu_immediate.md. -/

namespace Sys2Proof.Machine

/-- Settles O41: each shift is the common rule with its own fields and arithmetic meaning, and every
other `w[31:25]` is outside the opcode map. -/
theorem immediateShifts : Obligations.ImmediateShifts := by
  refine ⟨shiftImmRule_of_writeRegNext _ ?_ (fun _ _ _ _ => rfl) shiftLeft_eq_ofNat,
    shiftImmRule_of_writeRegNext _ ?_ (fun _ _ _ _ => rfl) ushiftRight_eq_ofNat,
    shiftImmRule_of_writeRegNext _ ?_ (fun _ _ _ _ => rfl) sshiftRight_eq_ofInt,
    fun _ hop hf3 hf7 => noInstruction_of_outside (outside_of_leftShift_funct7 hop hf3 hf7),
    fun _ hop hf3 hl ha => noInstruction_of_outside (outside_of_rightShift_funct7 hop hf3 hl ha)⟩
  all_goals
    intro w hf3 hf7
    simp [decodeOpImm, hf3, hf7]

/-- Settles O39: each of the four is the common rule with its own funct3 and operation; ADDI's sum is
the sum of the two signed numbers. -/
theorem immediateArithmeticAndLogic : Obligations.ImmediateArithmeticAndLogic := by
  refine ⟨aluImmRule_of_writeRegNext _ ?_ (fun _ _ _ _ => rfl) add_eq_ofInt,
    aluImmRule_of_writeRegNext _ ?_ (fun _ _ _ _ => rfl) (fun _ _ => rfl),
    aluImmRule_of_writeRegNext _ ?_ (fun _ _ _ _ => rfl) (fun _ _ => rfl),
    aluImmRule_of_writeRegNext _ ?_ (fun _ _ _ _ => rfl) (fun _ _ => rfl)⟩
  all_goals
    intro w hf3
    simp only [decodeOpImm, hf3]

/-- Settles O40: each set-if is the common rule with its own funct3 and comparison. -/
theorem immediateComparisons : Obligations.ImmediateComparisons := by
  refine ⟨aluImmRule_of_writeRegNext _ ?_ (fun _ _ _ _ => rfl)
      fun a imm => setIf_eq_ite (cmpLtS_iff a imm),
    aluImmRule_of_writeRegNext _ ?_ (fun _ _ _ _ => rfl)
      fun a imm => setIf_eq_ite (cmpLtU_iff a imm)⟩
  all_goals
    intro w hf3
    simp only [decodeOpImm, hf3]

end Sys2Proof.Machine
end

section
/-! PROOFS. The words of the register-register instructions, the shift count and the
difference as statements on numbers, and the common rule (R540) with its value left open. -/

namespace Sys2Proof

theorem decode_op {w : Word} (h : opcodeOf w = 0b0110011#7) : decode w = decodeOp w := by
  simp only [decode, h]

end Sys2Proof

namespace Sys2Proof.Machine

/-! ## The operands and results as numbers -/

/-- The low 5 bits of a register are its value modulo 32 (R543, R547, R548). -/
theorem shiftCount_eq_mod (v : Word) : shiftCount v = v.toNat % 32 := by
  rw [shiftCount, BitVec.extractLsb'_toNat, Nat.shiftRight_zero]

theorem sub_eq_ofInt (a b : Word) : a - b = BitVec.ofInt 32 (a.toInt - b.toInt) := by
  rw [← BitVec.toInt_inj, BitVec.toInt_sub, BitVec.toInt_ofInt]

/-! ## The common rule -/

/-- An instruction whose words are those of its funct7 and funct3, and which writes a result of
`x[rs1]` and `x[rs2]` that has that value, follows the common register-register rule (R540). -/
theorem aluRegRule_of_writeRegNext {mk : Reg → Reg → Reg → Instr} {f7 : BitVec 7} {f3 : BitVec 3}
    {f : Word → Word → Word} (op : Word → Word → Word)
    (hdecode : ∀ w, funct7Of w = f7 → funct3Of w = f3 →
      decodeOp w = some (mk (rdOf w) (rs1Of w) (rs2Of w)))
    (hexec : ∀ rd rs1 rs2 s,
      exec (mk rd rs1 rs2) s = writeRegNext rd (op (s.x rs1) (s.x rs2)) s)
    (hop : ∀ a b, op a b = f a b) : AluRegRule mk f7 f3 f := by
  refine ⟨fun w hopcode hf7 hf3 => (decode_op hopcode).trans (hdecode w hf7 hf3),
    fun rd rs1 rs2 s => ?_⟩
  rw [← hop]
  exact writesReg_of_writeRegNext (hexec ..)

/-- A shift by the count in `x[rs2]` whose result for every count `k` has that value follows the
common rule with that value at `x[rs2]` modulo 32. -/
theorem shiftRegRule_of_writeRegNext {mk : Reg → Reg → Reg → Instr} {f7 : BitVec 7}
    {f3 : BitVec 3} {f : Word → Nat → Word} (op : Word → Nat → Word)
    (hdecode : ∀ w, funct7Of w = f7 → funct3Of w = f3 →
      decodeOp w = some (mk (rdOf w) (rs1Of w) (rs2Of w)))
    (hexec : ∀ rd rs1 rs2 s,
      exec (mk rd rs1 rs2) s = writeRegNext rd (op (s.x rs1) (shiftCount (s.x rs2))) s)
    (hop : ∀ a k, op a k = f a k) : AluRegRule mk f7 f3 fun a b => f a (b.toNat % 32) := by
  refine aluRegRule_of_writeRegNext (fun a b => op a (shiftCount b)) hdecode hexec fun a b => ?_
  rw [hop, shiftCount_eq_mod]

end Sys2Proof.Machine
end

section
/-! PROOFS. The obligations of 46_alu_register.md. -/

namespace Sys2Proof.Machine

/-- Settles O44: each shift is the common rule with its own fields and arithmetic meaning, at the
count that is `x[rs2]` modulo 32. -/
theorem registerShifts : Obligations.RegisterShifts := by
  refine ⟨shiftRegRule_of_writeRegNext _ ?_ (fun _ _ _ _ => rfl) shiftLeft_eq_ofNat,
    shiftRegRule_of_writeRegNext _ ?_ (fun _ _ _ _ => rfl) ushiftRight_eq_ofNat,
    shiftRegRule_of_writeRegNext _ ?_ (fun _ _ _ _ => rfl) sshiftRight_eq_ofInt⟩
  all_goals
    intro w hf7 hf3
    simp only [decodeOp, hf7, hf3]

/-- Settles O42: each of the five is the common rule with its own fields and operation; ADD's sum
and SUB's difference are those of the two numbers modulo 2^32. -/
theorem registerArithmeticAndLogic : Obligations.RegisterArithmeticAndLogic := by
  refine ⟨aluRegRule_of_writeRegNext _ ?_ (fun _ _ _ _ => rfl) BitVec.add_def,
    aluRegRule_of_writeRegNext _ ?_ (fun _ _ _ _ => rfl) sub_eq_ofInt,
    aluRegRule_of_writeRegNext _ ?_ (fun _ _ _ _ => rfl) (fun _ _ => rfl),
    aluRegRule_of_writeRegNext _ ?_ (fun _ _ _ _ => rfl) (fun _ _ => rfl),
    aluRegRule_of_writeRegNext _ ?_ (fun _ _ _ _ => rfl) (fun _ _ => rfl)⟩
  all_goals
    intro w hf7 hf3
    simp only [decodeOp, hf7, hf3]

/-- Settles O43: each set-if is the common rule with its own fields and comparison. -/
theorem registerComparisons : Obligations.RegisterComparisons := by
  refine ⟨aluRegRule_of_writeRegNext _ ?_ (fun _ _ _ _ => rfl)
      fun a b => setIf_eq_ite (cmpLtS_iff a b),
    aluRegRule_of_writeRegNext _ ?_ (fun _ _ _ _ => rfl)
      fun a b => setIf_eq_ite (cmpLtU_iff a b)⟩
  all_goals
    intro w hf7 hf3
    simp only [decodeOp, hf7, hf3]

end Sys2Proof.Machine
end

section
/-! PROOFS. The words of the fences, the one word a well-formed instruction is decoded from, and the
common rule of the instructions without execution semantics (R580). -/

namespace Sys2Proof

theorem decode_miscMem {w : Word} (h : opcodeOf w = 0b0001111#7) : decode w = decodeMiscMem w := by
  simp only [decode, h]

/-- The encoding of a well-formed instruction is the only word that decodes to it (R339). -/
theorem decode_eq_some_iff {w : Word} {i : Instr} (hi : i.wellFormed = true) :
    decode w = some i ↔ w = encode i := by
  constructor
  · intro h
    exact (encode_of_decode h).1.symm
  · rintro rfl
    exact decode_encode hi

end Sys2Proof

namespace Sys2Proof.Machine

/-- An instruction whose execution raises `UnsupportedInstruction` of itself in every state follows
the common rule: the host sees that failure and the state it had (R580, R704). -/
theorem unsupportedRule_of_exec {i : Instr} (hexec : ∀ s, exec i s = unsupported i) :
    UnsupportedRule i :=
  fun s => failsWith_of_fault (hexec s)

end Sys2Proof.Machine
end

section
/-! PROOFS. The obligations of 47_fence_system.md. -/

namespace Sys2Proof.Machine

/-- Settles O45: the fences are decoded by funct3 alone, ECALL and EBREAK only from their own
encodings, and each of the four is the common rule. -/
theorem fenceAndEnvironmentInstructionsFail : Obligations.FenceAndEnvironmentInstructionsFail := by
  have hecall : encode .ecall = 0x00000073#32 := by decide
  have hebreak : encode .ebreak = 0x00100073#32 := by decide
  refine ⟨fun w hop hf3 => ?_, fun w hop hf3 => ?_,
    fun w => hecall ▸ decode_eq_some_iff rfl, fun w => hebreak ▸ decode_eq_some_iff rfl,
    fun _ _ _ _ _ => unsupportedRule_of_exec fun _ => rfl,
    fun _ _ _ => unsupportedRule_of_exec fun _ => rfl,
    unsupportedRule_of_exec fun _ => rfl, unsupportedRule_of_exec fun _ => rfl⟩
  all_goals
    rw [decode_miscMem hop]
    simp only [decodeMiscMem, hf3]

end Sys2Proof.Machine
end

section
/-! PROOFS. The words of the CSR instructions and their common rule (R600), with a register source
and with an immediate source. -/

namespace Sys2Proof

theorem decode_system {w : Word} (h : opcodeOf w = 0b1110011#7) : decode w = decodeSystem w := by
  simp only [decode, h]

end Sys2Proof

namespace Sys2Proof.Machine

/-- A CSR file that is the old one after a write reads the value in that CSR and the old values in
every other. -/
theorem csrWritten_of_eq {s t : State} {c : CsrIdx} {v : Word}
    (hcsr : t.csr = cellPut csrUnlisted c.toNat v s.csr) : CsrWritten s t c v := by
  intro d
  rw [← csrRead_csrWrite, State.csrRead, hcsr]
  rfl

/-- An instruction that is a CSR update writes its register, its CSR and the pc, and nothing else
(R600). -/
theorem updatesCsr_of_csrUpdate {i : Instr} {s : State} {f : Word → Word → Word} {rd : Reg}
    {c : CsrIdx} {src : Word} (h : exec i s = csrUpdate f rd c src s) :
    UpdatesCsr i s rd c (f (s.csrRead c) src) := by
  obtain ⟨t, ht, hpc, hmem, hcsr, -, hx⟩ := csrUpdate_spec f rd c src s
  exact ⟨t, h.trans ht, hx, csrWritten_of_eq hcsr, ⟨by rw [hmem], fun a => by rw [hmem]⟩, hpc⟩

/-- An instruction whose words are those of its funct3, and which updates its CSR from `x[rs1]`,
follows the common rule with a register source. -/
theorem csrRule_of_csrUpdate {mk : Reg → Reg → CsrIdx → Instr} {f3 : BitVec 3}
    {f : Word → Word → Word}
    (hdecode : ∀ w, funct3Of w = f3 → decodeSystem w = some (mk (rdOf w) (rs1Of w) (csrnoOf w)))
    (hexec : ∀ rd rs1 c s, exec (mk rd rs1 c) s = csrUpdate f rd c (s.x rs1) s) :
    CsrRule mk f3 f :=
  ⟨fun w hop hf3 => (decode_system hop).trans (hdecode w hf3),
    fun _ _ _ _ => updatesCsr_of_csrUpdate (hexec ..)⟩

/-- The same with the zero-extended immediate (R315) as the source. -/
theorem csrImmRule_of_csrUpdate {mk : Reg → BitVec 5 → CsrIdx → Instr} {f3 : BitVec 3}
    {f : Word → Word → Word}
    (hdecode : ∀ w, funct3Of w = f3 → decodeSystem w = some (mk (rdOf w) (uimmOf w) (csrnoOf w)))
    (hexec : ∀ rd uimm c s, exec (mk rd uimm c) s = csrUpdate f rd c (csrImm uimm) s) :
    CsrImmRule mk f3 f := by
  refine ⟨fun w hop hf3 => (decode_system hop).trans (hdecode w hf3), fun rd uimm c s => ?_⟩
  rw [BitVec.ofNat_toNat]
  exact updatesCsr_of_csrUpdate (hexec ..)

end Sys2Proof.Machine
end

section
/-! PROOFS. The obligations of 48_csr.md. -/

namespace Sys2Proof.Machine

/-- Settles O46: each of the six is the common rule with its own funct3, source and operation. -/
theorem csrInstructionsReadThenUpdate : Obligations.CsrInstructionsReadThenUpdate := by
  refine ⟨csrRule_of_csrUpdate ?_ (fun _ _ _ _ => rfl),
    csrRule_of_csrUpdate ?_ (fun _ _ _ _ => rfl),
    csrRule_of_csrUpdate ?_ (fun _ _ _ _ => rfl),
    csrImmRule_of_csrUpdate ?_ (fun _ _ _ _ => rfl),
    csrImmRule_of_csrUpdate ?_ (fun _ _ _ _ => rfl),
    csrImmRule_of_csrUpdate ?_ (fun _ _ _ _ => rfl)⟩
  all_goals
    intro w hf3
    simp only [decodeSystem, hf3]

/-- Settles O47: by the rules of the two instructions, the CSR holds the source after the first,
and the second reads it and sets no bit, since its source reads 0. -/
theorem csrWriteThenReadReturnsTheValue : Obligations.CsrWriteThenReadReturnsTheValue := by
  intro s t rd src dst c _ hdst ht
  obtain ⟨⟨-, hrw⟩, ⟨-, hrs⟩, -⟩ := csrInstructionsReadThenUpdate
  obtain ⟨t', ht', -, hwritten, -⟩ := hrw rd src c s
  obtain rfl : t' = t := by cases ht'.symm.trans ht; rfl
  have hold : t'.csrRead c = s.x src := by rw [hwritten, if_pos rfl]
  obtain ⟨u, hu, hread, hkept, -⟩ := hrs dst 0#5 c t'
  refine ⟨u, hu, ?_, ?_, x_zero t', x_zero u⟩
  · rw [hread, if_pos ⟨rfl, hdst⟩, hold]
  · calc u.csrRead c = t'.csrRead c ||| 0#32 := (hkept c).trans (if_pos rfl)
      _ = s.x src := by rw [BitVec.or_zero, hold]

end Sys2Proof.Machine
end

section
/-! PROOFS. What a step can answer: the three outcomes of its fetch, exactly when an instruction
and a step fail and with what, and that neither is ever refused. -/

namespace Sys2Proof.Machine

/-! ## An instruction -/

theorem exec_of_isUnsupported {i : Instr} (h : isUnsupported i = true) (s : State) :
    exec i s = .fault (.unsupportedInstruction i) := by
  cases i with
  | fence | fencei | ecall | ebreak => rfl
  | _ => cases h

theorem exec_fault_iff {i : Instr} {s : State} {f : Fault} :
    exec i s = .fault f ↔
      (f = .unsupportedInstruction i ∧ isUnsupported i = true) ∨
      ∃ a n, dataAccess i s = some (a, n) ∧ ¬ s.mem.InBounds a n ∧ f = .outOfBoundsAccess a n := by
  constructor
  · exact exec_fault
  · rintro (⟨rfl, hu⟩ | ⟨a, n, hd, hb, rfl⟩)
    · exact exec_of_isUnsupported hu s
    · exact exec_outOfBounds hd hb

/-- An instruction with semantics whose data access, if any, is in bounds completes (R706). -/
theorem exec_completes {i : Instr} {s : State} (hu : isUnsupported i = false)
    (hd : ∀ a n, dataAccess i s = some (a, n) → s.mem.InBounds a n) :
    ∃ t, exec i s = .next t := by
  cases h : exec i s with
  | next t => exact ⟨t, rfl⟩
  | fault f =>
    obtain ⟨-, hu'⟩ | ⟨a, n, ha, hb, -⟩ := exec_fault h
    · cases hu.symm.trans hu'
    · exact absurd (hd a n ha) hb
  | refused r => exact absurd h exec_not_refused

/-! ## A step -/

/-- The three outcomes of fetch and decode, and the step in each (R132, R133). -/
theorem step_cases (s : State) :
    (¬ s.mem.InBounds s.pc 4 ∧ step s = .fault (.outOfBoundsAccess s.pc 4)) ∨
    (s.mem.InBounds s.pc 4 ∧ decode (fetchWord s) = none ∧
      step s = .fault (.invalidEncoding (fetchWord s) s.pc)) ∨
    (s.mem.InBounds s.pc 4 ∧ ∃ i, decode (fetchWord s) = some i ∧ step s = exec i s) := by
  by_cases hb : s.mem.InBounds s.pc 4
  · cases hd : decode (fetchWord s) with
    | none => exact .inr (.inl ⟨hb, rfl, step_invalidEncoding hb hd⟩)
    | some i => exact .inr (.inr ⟨hb, i, rfl, step_of_decode hb hd⟩)
  · exact .inl ⟨hb, step_outOfBounds hb⟩

theorem step_not_refused {s : State} {r : Refusal} : step s ≠ .refused r := by
  intro h
  obtain ⟨-, hs⟩ | ⟨-, -, hs⟩ | ⟨-, i, -, hs⟩ := step_cases s
  · cases hs.symm.trans h
  · cases hs.symm.trans h
  · exact exec_not_refused (hs.symm.trans h)

/-- Every way a step fails: its fetch is out of bounds, its word does not decode, or the decoded
instruction fails (R701 to R703). -/
theorem step_fault_iff {s : State} {f : Fault} :
    step s = .fault f ↔
      (¬ s.mem.InBounds s.pc 4 ∧ f = .outOfBoundsAccess s.pc 4) ∨
      (s.mem.InBounds s.pc 4 ∧ decode (fetchWord s) = none ∧
        f = .invalidEncoding (fetchWord s) s.pc) ∨
      (s.mem.InBounds s.pc 4 ∧ ∃ i, decode (fetchWord s) = some i ∧ exec i s = .fault f) := by
  constructor
  · intro h
    obtain ⟨hb, hs⟩ | ⟨hb, hd, hs⟩ | ⟨hb, i, hd, hs⟩ := step_cases s
    · cases hs.symm.trans h; exact .inl ⟨hb, rfl⟩
    · cases hs.symm.trans h; exact .inr (.inl ⟨hb, hd, rfl⟩)
    · exact .inr (.inr ⟨hb, i, hd, hs.symm.trans h⟩)
  · rintro (⟨hb, rfl⟩ | ⟨hb, hd, rfl⟩ | ⟨hb, i, hd, h⟩)
    · exact step_outOfBounds hb
    · exact step_invalidEncoding hb hd
    · exact (step_of_decode hb hd).trans h

/-! ## The host's step -/

/-- The host's step of a failing step reports the failure and keeps the state (R704). -/
theorem hostStep_of_fault {s : State} {f : Fault} (h : step s = .fault f) :
    hostStep s = (s, .failed f) := by
  unfold step at h
  unfold hostStep
  split at h
  · rename_i i hi; simp only [hi, h]
  · rename_i e he; cases h; simp only [he]

/-- The host's step of a step that completes leaves its next state and reports the decoded
instruction (R136). -/
theorem hostStep_of_next {s t : State} (h : step s = .next t) :
    ∃ i, decode (fetchWord s) = some i ∧ hostStep s = (t, .executed i) := by
  obtain ⟨i, hi, he⟩ := step_next h
  obtain ⟨-, hd⟩ := fetchDecode_ok hi
  exact ⟨i, hd, by simp only [hostStep, hi, he]⟩

end Sys2Proof.Machine
end

section
/-! PROOFS. The obligations of 60_exceptions.md. -/

namespace Sys2Proof.Machine

/-- Settles O9: each failure value is one disjunct of the ways a step and an instruction fail. -/
theorem failuresAriseExactlyWhenStated : Obligations.FailuresAriseExactlyWhenStated := by
  intro s
  simp only [step_fault_iff, exec_fault_iff]
  refine ⟨fun w a => ?_, fun i => ?_, fun a n => ?_⟩
  · -- only a word that does not decode
    simp only [Fault.invalidEncoding.injEq, reduceCtorEq, and_false, false_and, exists_false,
      or_false, false_or]
    constructor
    · rintro ⟨hb, hd, rfl, rfl⟩
      exact ⟨hb, hd, rfl, rfl⟩
    · rintro ⟨hb, hd, rfl, rfl⟩
      exact ⟨hb, hd, rfl, rfl⟩
  · -- only an instruction without semantics
    simp only [Fault.unsupportedInstruction.injEq, reduceCtorEq, and_false, exists_false,
      or_false, false_or]
    constructor
    · rintro ⟨hb, _, hd, rfl, hu⟩
      exact ⟨hb, hd, hu⟩
    · rintro ⟨hb, hd, hu⟩
      exact ⟨hb, i, hd, rfl, hu⟩
  · -- the fetch, or an instruction's data access
    simp only [Fault.outOfBoundsAccess.injEq, reduceCtorEq, and_false, false_and, false_or]
    refine or_congr_right (and_congr_right fun _ => exists_congr fun i =>
      and_congr_right fun _ => ?_)
    constructor
    · rintro ⟨_, _, ha, hb, rfl, rfl⟩
      exact ⟨ha, hb⟩
    · rintro ⟨ha, hb⟩
      exact ⟨a, n, ha, hb, rfl, rfl⟩

/-- Settles O10: a step that does not complete fails, since none is refused. -/
theorem stepSucceedsOrFailsWithOneOfThree : Obligations.StepSucceedsOrFailsWithOneOfThree := by
  refine ⟨fun s => ?_, fun _ _ => rfl, fun _ => rfl, fun _ _ => rfl⟩
  cases h : step s with
  | next t => exact .inl ⟨t, rfl⟩
  | fault f =>
    cases f with
    | invalidEncoding w a => exact .inr (.inl ⟨w, a, rfl⟩)
    | unsupportedInstruction i => exact .inr (.inr (.inl ⟨i, rfl⟩))
    | outOfBoundsAccess a n => exact .inr (.inr (.inr ⟨a, n, rfl⟩))
  | refused r => exact absurd h step_not_refused

/-- Settles O11: past its fetch, the step is an instruction with nothing left to fail on. -/
theorem stepCompletesWhenAccessesAreInBounds :
    Obligations.StepCompletesWhenAccessesAreInBounds := by
  intro s i hb hd hu ha
  rw [step_of_decode hb hd]
  exact exec_completes hu ha

/-- Settles O30: a failed step leaves the state it started from, so the second one is the first
again. -/
theorem stepReportsAndFailuresAreAtomic : Obligations.StepReportsAndFailuresAreAtomic := by
  refine fun s => ⟨fun f h => ?_, fun t h => hostStep_of_next h⟩
  have hfailed : hostApply .step s = (s, .failed f) := hostStep_of_fault h
  exact ⟨hfailed, by rw [hfailed, hfailed]⟩

end Sys2Proof.Machine
end

section
/-! PROOFS. `create` and `load` (R800 to R802), and the invariant under what a host may do that no
instruction does. -/

namespace Sys2Proof.Machine

/-! ## create -/

theorem create_x (n : Nat) (r : Reg) : (State.create n).x r = 0#32 := by
  simp [State.x, State.create]

theorem inv_create {n : Nat} (h : Config.minMemSize ≤ n ∧ n ≤ Config.maxMemSize) :
    (State.create n).Inv :=
  ⟨h, rfl, rfl, create_x n 0#5⟩

/-! ## load -/

theorem hostApply_load_of_fits {s : State} {image : List Byte} (entryPc : Word)
    (h : image.length ≤ s.mem.size) :
    hostApply (.load entryPc image) s =
      ({ s with mem := s.mem.writeBytes 0 image }.setPc entryPc, .done) := by
  simp only [hostApply, loadImage, if_pos h, State.setPc]

theorem hostApply_load_of_oversized {s : State} {image : List Byte} (entryPc : Word)
    (h : s.mem.size < image.length) : hostApply (.load entryPc image) s = (s, .loadRefused) := by
  simp only [hostApply, loadImage, if_neg (Nat.not_le.mpr h)]

/-- The bytes of an image written at offset 0, and the old bytes past its end (R801). -/
theorem byte_writeBytes_zero (m : Memory) (image : List Byte) (k : Nat) :
    (m.writeBytes 0 image).byte k = if h : k < image.length then image[k] else m.byte k := by
  simp [byte_writeBytes]

/-! ## The invariant -/

theorem inv_withMem {s : State} (h : s.Inv) {m : Memory} (hsize : m.size = s.mem.size)
    (hwf : m.wf = true) : ({ s with mem := m } : State).Inv := by
  obtain ⟨hlegal, -, hcsr, hzero⟩ := h
  exact ⟨by rwa [State.memSizeLegal, hsize], hwf, hcsr, hzero⟩

theorem inv_hostApply_load {s : State} (hs : s.Inv) (entryPc : Word) (image : List Byte) :
    (hostApply (.load entryPc image) s).1.Inv := by
  by_cases h : image.length ≤ s.mem.size
  · obtain ⟨-, hwf, -⟩ := id hs
    rw [hostApply_load_of_fits entryPc h]
    exact inv_setPc (inv_withMem hs (writeBytes_size ..)
      (writeBytes_wf s.mem image (by omega) hwf)) entryPc
  · rwa [hostApply_load_of_oversized entryPc (by omega)]

theorem inv_hostStep {s : State} (hs : s.Inv) : (hostStep s).1.Inv := by
  cases h : step s with
  | next t =>
    obtain ⟨i, -, hi⟩ := hostStep_of_next h
    rw [hi]
    exact step_keeps_inv hs h
  | fault f => rwa [hostStep_of_fault h]
  | refused r => exact absurd h step_not_refused

end Sys2Proof.Machine
end

section
/-! PROOFS. The obligations of 70_reset_and_hazards.md. -/

namespace Sys2Proof.Machine

/-- Settles O16: a refused or failed operation leaves the state, and every other is a write of one
part of it, a step, a load or a new state. -/
theorem hostOperationsKeepInvariant : Obligations.HostOperationsKeepInvariant := by
  intro op s hs
  obtain ⟨hlegal, hwf, -⟩ := id hs
  cases op with
  | create => exact inv_create hlegal
  | load entryPc image => exact inv_hostApply_load hs entryPc image
  | step => exact inv_hostStep hs
  | writeReg r v => exact inv_setX hs r v
  | writePc v => exact inv_setPc hs v
  | writeCsr c v => exact inv_csrWrite hs c v
  | writeByte a b =>
    by_cases hb : s.mem.InBounds a 1
    · simp only [hostApply, if_pos hb]
      exact inv_withMem hs (setByte_size ..) (setByte_wf s.mem b (by omega) hwf)
    · simpa only [hostApply, if_neg hb] using hs

/-- Settles O28: a fitting image is one run of bytes written at offset 0, and then the pc. -/
theorem loadCopiesTheImage : Obligations.LoadCopiesTheImage := by
  intro s entryPc image h
  refine ⟨_, hostApply_load_of_fits entryPc h, rfl, fun k hk => ?_, fun a ha => ?_,
    writeBytes_size .., fun _ => rfl, fun _ => rfl⟩
  · rw [setPc_mem, byte_writeBytes_zero, dif_pos hk]
  · rw [setPc_mem, byte_writeBytes_zero, dif_neg (by omega)]

/-- Settles O13: `create` lists no byte and no CSR, and an unlisted one reads as 0. -/
theorem createZeroesTheState : Obligations.CreateZeroesTheState :=
  fun n => ⟨create_x n, rfl, fun _ => rfl, fun _ => rfl, rfl⟩

/-- Settles O29: the length check precedes every write. -/
theorem oversizedLoadIsRefused : Obligations.OversizedLoadIsRefused :=
  fun _ entryPc _ h => hostApply_load_of_oversized entryPc h

end Sys2Proof.Machine
end

section
/-! PROOFS. The sample words of 95_test_vectors.md. -/

namespace Sys2Proof.Machine

/-- Settles O6: the decoder is run on each of the ten words. -/
theorem sampleWordsDecode : Obligations.SampleWordsDecode := by
  unfold Obligations.SampleWordsDecode
  decide

end Sys2Proof.Machine
end
